-- ==== Sys2Proof/Word.lean ====
section
/-! DEFINITION. The bit-vector types of the engine (`00_scope.md` R8, R10; `20_memory.md` R62). -/

namespace Sys2Proof

/-- A 32-bit word; `+` on it is addition modulo `2^32` (R10, R11). -/
abbrev Word := BitVec 32

/-- A byte of the message or a character code (R10). -/
abbrev Byte := BitVec 8

/-- The 29-bit `addr` field of a host transaction (`20_memory.md` R64). -/
abbrev Addr := BitVec 29

/-- The 7-bit index `J` of the sequencer (`10_state.md` R33). -/
abbrev Index := BitVec 7

end Sys2Proof
end

