-- ==== Sys2Proof/Config.lean ====
section
/-! DEFINITION. What the spec leaves to a model as parameters or as unspecified values
(`00_scope.md` R9, R11, R12; `93_implementation_defined.md` U2, U4, U7, U14). -/

namespace Sys2Proof.Config

/-- The default of the parameter `MSG_CAP`, which is also its largest legal value (R9).
Every memory carries its own size, so this number only fixes `State.reset` (log 5). -/
def msgCapMax : Nat := 536870911

/-- The value `any` of R12: the `n`-th draw of an instance, with no value a proof could see
(U2, log 7). -/
opaque anyWord (life n : Nat) : Word

/-- The content at power-on of the message byte at address `a`, drawn once per power-on
(R49, U4, log 6). -/
opaque powerOnByte (life a : Nat) : Byte

/-- A byte at a position of the padded stream at or past its end, where R142 defines none (log 9). -/
opaque beyondStream (i : Nat) : Byte

/-- `rotl(x, n)` for `n = 0` and `n >= 32`, which R11 leaves undefined (U7, log 23). -/
opaque undefinedRotl (x : Word) (n : Nat) : Word

end Sys2Proof.Config
end

