-- ==== Sys2Proof/Syntax.lean ====
section
/-! DEFINITION. The operation set: one constructor per mnemonic of `spec/opcode_table.json`
(`30_encoding.md` R90, R94). -/

namespace Sys2Proof

/-- A register number of R space as the register it names (`10_state.md` R38).
`reserved a` is any address that names no register: numbers 3, 9 to 15, 26 to 63 (R44), and
every address with `addr[28:6] != 0` (R94). -/
inductive Reg where
  | cmd
  | status
  | len
  | h (i : Fin 5)
  | digw (i : Fin 10)
  | reserved (a : Addr)
  deriving DecidableEq, Repr

/-- The seventeen operations of the engine (R90). A micro-operation carries the index `J` it was
decoded with (R94, R103). -/
inductive Instr where
  /-- `RD n` (R120). -/
  | rd (r : Reg)
  /-- `WR n, v` (R121). -/
  | wr (r : Reg) (v : Word)
  /-- `RDM a` (R122). -/
  | rdm (a : Addr)
  /-- `WRM a, b` (R123). -/
  | wrm (a : Addr) (b : Byte)
  /-- `NOP` (R125). -/
  | nop
  /-- `START` (R126). -/
  | start
  /-- `CLR` (R127). -/
  | clr
  /-- `LDW` with `J = t` (R147). -/
  | ldw (t : Index)
  /-- `CPW` with `J = j` (R163). -/
  | cpw (j : Index)
  /-- `XW` with `J = j` (R164). -/
  | xw (j : Index)
  /-- `LDS` (R172). -/
  | lds
  /-- `RND0` with `J = j` (R174). -/
  | rnd0 (j : Index)
  /-- `RND1` with `J = j` (R175). -/
  | rnd1 (j : Index)
  /-- `RND2` with `J = j` (R176). -/
  | rnd2 (j : Index)
  /-- `RND3` with `J = j` (R177). -/
  | rnd3 (j : Index)
  /-- `FOLD` (R180). -/
  | fold
  /-- `HEXW` with `J = i` (R192). -/
  | hexw (i : Index)
  deriving DecidableEq, Repr

/-- The three formats of R90. The format is told by where a word comes from (R100). -/
inductive Format where
  | t
  | c
  | s
  deriving DecidableEq, Repr

/-- The format an operation is spelled in (R90). -/
def Instr.format : Instr → Format
  | .rd _ => .t
  | .wr _ _ => .t
  | .rdm _ => .t
  | .wrm _ _ => .t
  | .nop => .c
  | .start => .c
  | .clr => .c
  | .ldw _ => .s
  | .cpw _ => .s
  | .xw _ => .s
  | .lds => .s
  | .rnd0 _ => .s
  | .rnd1 _ => .s
  | .rnd2 _ => .s
  | .rnd3 _ => .s
  | .fold => .s
  | .hexw _ => .s

/-- The mnemonic of an operation, as `spec/opcode_table.json` spells it. -/
def Instr.mnemonic : Instr → String
  | .rd _ => "RD"
  | .wr _ _ => "WR"
  | .rdm _ => "RDM"
  | .wrm _ _ => "WRM"
  | .nop => "NOP"
  | .start => "START"
  | .clr => "CLR"
  | .ldw _ => "LDW"
  | .cpw _ => "CPW"
  | .xw _ => "XW"
  | .lds => "LDS"
  | .rnd0 _ => "RND0"
  | .rnd1 _ => "RND1"
  | .rnd2 _ => "RND2"
  | .rnd3 _ => "RND3"
  | .fold => "FOLD"
  | .hexw _ => "HEXW"

end Sys2Proof
end

