-- ==== Sys2Proof/WellFormed.lean ====
section
/-! DEFINITION. Which terms of `Instr` an encoding spells: the ranges of `J` of `30_encoding.md`
R97, and `reserved` only for addresses that name no register (`10_state.md` R38, R44). -/

namespace Sys2Proof

/-- The addresses that name no register: numbers 3, 9 to 15 and 26 to 63 (R44), and everything with
`addr[28:6] != 0` (R94). -/
def Reg.isReservedAddr (a : Addr) : Bool :=
  a.toNat == 3 || (9 ≤ a.toNat && a.toNat ≤ 15) || 26 ≤ a.toNat

def Reg.wf : Reg → Bool
  | .cmd => true
  | .status => true
  | .len => true
  | .h _ => true
  | .digw _ => true
  | .reserved a => Reg.isReservedAddr a

/-- An operation is well formed when some word spells it (R95 to R97). -/
def Instr.wf : Instr → Bool
  | .rd r => r.wf
  | .wr r _ => r.wf
  | .rdm _ => true
  | .wrm _ _ => true
  | .nop => true
  | .start => true
  | .clr => true
  | .ldw t => t.toNat ≤ 15
  | .cpw j => j.toNat ≤ 15
  | .xw j => 16 ≤ j.toNat && j.toNat ≤ 79
  | .lds => true
  | .rnd0 j => j.toNat ≤ 19
  | .rnd1 j => 20 ≤ j.toNat && j.toNat ≤ 39
  | .rnd2 j => 40 ≤ j.toNat && j.toNat ≤ 59
  | .rnd3 j => 60 ≤ j.toNat && j.toNat ≤ 79
  | .fold => true
  | .hexw i => i.toNat ≤ 4

end Sys2Proof
end

