-- ==== Sys2Proof/Decode.lean ====
section
/-! DEFINITION. The three decoders of `30_encoding.md` R103, total on every word of their format,
and the encoder. -/

namespace Sys2Proof

/-! ### Stage codes (`10_state.md` R32) -/

abbrev Stage.idle : BitVec 4 := 0#4
abbrev Stage.seg : BitVec 4 := 1#4
abbrev Stage.xpd : BitVec 4 := 2#4
abbrev Stage.lds : BitVec 4 := 3#4
abbrev Stage.rnd : BitVec 4 := 4#4
abbrev Stage.fold : BitVec 4 := 5#4
abbrev Stage.enc : BitVec 4 := 6#4
abbrev Stage.done : BitVec 4 := 7#4
abbrev Stage.fault : BitVec 4 := 15#4

/-- Why a word spells no operation (R99, R103). -/
inductive DecodeError where
  /-- Format T with `z = 1`: spells no transaction. -/
  | invalidTransaction
  /-- Format C with `ZERO != 0` or `OP` in 3..15. -/
  | illegalCommand
  /-- Format S `0x000`, `0x380`, `0x780`: the engine has no step. -/
  | idleWord
  /-- Every other format S word that is no micro-operation. -/
  | unreachableWord
  deriving DecidableEq, Repr

/-- A word with the format it is spelled in (R90, R100). -/
inductive Coded where
  | t (w : BitVec 64)
  | c (w : BitVec 32)
  | s (w : BitVec 11)
  deriving DecidableEq, Repr

/-- The format a word is spelled in. -/
def Coded.format : Coded → Format
  | .t _ => .t
  | .c _ => .c
  | .s _ => .s

/-! ### Format T -/

/-- The record of a host transaction (`20_memory.md` R64). -/
structure Transaction where
  space : Bool
  we : Bool
  addr : Addr
  wdata : Word
  deriving DecidableEq, Repr

/-- The register a transaction's address names (`10_state.md` R38, `30_encoding.md` R94). -/
def Reg.ofAddr (a : Addr) : Reg :=
  if a.toNat = 0 then .cmd
  else if a.toNat = 1 then .status
  else if a.toNat = 2 then .len
  else if h : 4 ≤ a.toNat ∧ a.toNat ≤ 8 then .h ⟨a.toNat - 4, by omega⟩
  else if h : 16 ≤ a.toNat ∧ a.toNat ≤ 25 then .digw ⟨a.toNat - 16, by omega⟩
  else .reserved a

/-- The number of a register (R38). -/
def Reg.addr : Reg → Addr
  | .cmd => 0#29
  | .status => 1#29
  | .len => 2#29
  | .h i => BitVec.ofNat 29 (4 + i.val)
  | .digw i => BitVec.ofNat 29 (16 + i.val)
  | .reserved a => a

/-- The record a canonical packing holds; `z = 1` spells none (R91). -/
def unpackT (w : BitVec 64) : Except DecodeError Transaction :=
  if w.getLsbD 61 then .error .invalidTransaction
  else .ok
    { space := w.getLsbD 63
      we := w.getLsbD 62
      addr := w.extractLsb' 32 29
      wdata := w.extractLsb' 0 32 }

/-- The canonical packing `space ‖ we ‖ 0 ‖ addr ‖ wdata` (R91). -/
def packT (x : Transaction) : BitVec 64 :=
  (BitVec.ofBool x.space ++ BitVec.ofBool x.we ++ 0#1 ++ x.addr ++ x.wdata).cast rfl

/-- The four combinations of R64: `RD` (0,0), `WR` (0,1), `RDM` (1,0), `WRM` (1,1). -/
def Transaction.instr (x : Transaction) : Instr :=
  match x.space, x.we with
  | false, false => .rd (Reg.ofAddr x.addr)
  | false, true => .wr (Reg.ofAddr x.addr) x.wdata
  | true, false => .rdm x.addr
  | true, true => .wrm x.addr (x.wdata.extractLsb' 0 8)

/-- `decodeT` of R103, by R95. -/
def decodeT (w : BitVec 64) : Except DecodeError Instr :=
  match unpackT w with
  | .ok x => .ok x.instr
  | .error why => .error why

/-! ### Format C -/

/-- `decodeC` of R103, by R96: the whole word must match. -/
def decodeC (w : BitVec 32) : Except DecodeError Instr :=
  if w = 0x00000000#32 then .ok .nop
  else if w = 0x00000001#32 then .ok .start
  else if w = 0x00000002#32 then .ok .clr
  else .error .illegalCommand

/-! ### Format S -/

/-- The control word `S = STG ‖ J` (R93). -/
def controlWord (stg : BitVec 4) (j : Index) : BitVec 11 := (stg ++ j).cast rfl

def controlStage (w : BitVec 11) : BitVec 4 := w.extractLsb' 7 4

def controlIndex (w : BitVec 11) : Index := w.extractLsb' 0 7

/-- `decodeS` of R103 on the two fields: the range column of R97 and the idle words of R99. -/
def decodeSeq (stg : BitVec 4) (j : Index) : Except DecodeError Instr :=
  if stg = Stage.seg then
    if j.toNat ≤ 15 then .ok (.ldw j) else .error .unreachableWord
  else if stg = Stage.xpd then
    if j.toNat ≤ 15 then .ok (.cpw j)
    else if j.toNat ≤ 79 then .ok (.xw j) else .error .unreachableWord
  else if stg = Stage.lds then
    if j.toNat = 0 then .ok .lds else .error .unreachableWord
  else if stg = Stage.rnd then
    if j.toNat ≤ 19 then .ok (.rnd0 j)
    else if j.toNat ≤ 39 then .ok (.rnd1 j)
    else if j.toNat ≤ 59 then .ok (.rnd2 j)
    else if j.toNat ≤ 79 then .ok (.rnd3 j) else .error .unreachableWord
  else if stg = Stage.fold then
    if j.toNat = 0 then .ok .fold else .error .unreachableWord
  else if stg = Stage.enc then
    if j.toNat ≤ 4 then .ok (.hexw j) else .error .unreachableWord
  else if stg = Stage.idle ∨ stg = Stage.done ∨ stg = Stage.fault then
    if j.toNat = 0 then .error .idleWord else .error .unreachableWord
  else .error .unreachableWord

/-- `decodeS` of R103. -/
def decodeS (w : BitVec 11) : Except DecodeError Instr :=
  decodeSeq (controlStage w) (controlIndex w)

/-! ### All formats -/

/-- Decoding by format (R100, R103). -/
def decode : Coded → Except DecodeError Instr
  | .t w => decodeT w
  | .c w => decodeC w
  | .s w => decodeS w

/-- The word of an operation: format T by R91 and R95 (the data of a read is 0), format C by R96,
format S by R93 and R97. -/
def encode : Instr → Coded
  | .rd r => .t (packT ⟨false, false, r.addr, 0#32⟩)
  | .wr r v => .t (packT ⟨false, true, r.addr, v⟩)
  | .rdm a => .t (packT ⟨true, false, a, 0#32⟩)
  | .wrm a b => .t (packT ⟨true, true, a, b.setWidth 32⟩)
  | .nop => .c 0x00000000#32
  | .start => .c 0x00000001#32
  | .clr => .c 0x00000002#32
  | .ldw t => .s (controlWord Stage.seg t)
  | .cpw j => .s (controlWord Stage.xpd j)
  | .xw j => .s (controlWord Stage.xpd j)
  | .lds => .s (controlWord Stage.lds 0#7)
  | .rnd0 j => .s (controlWord Stage.rnd j)
  | .rnd1 j => .s (controlWord Stage.rnd j)
  | .rnd2 j => .s (controlWord Stage.rnd j)
  | .rnd3 j => .s (controlWord Stage.rnd j)
  | .fold => .s (controlWord Stage.fold 0#7)
  | .hexw i => .s (controlWord Stage.enc i)

/-- The word of `nbits` bits that the opcode table numbers from bit 0, in the format of its width:
11 bits (two bytes) are format S, 32 are format C, 64 are format T (R90, log 18). A bit above the
format's width makes it no word of that format. -/
def codedOfTable (nbits w : Nat) : Option Coded :=
  if nbits ≤ 16 then
    if w < 2 ^ 11 then some (.s (BitVec.ofNat 11 w)) else none
  else if nbits ≤ 32 then
    if w < 2 ^ 32 then some (.c (BitVec.ofNat 32 w)) else none
  else if nbits ≤ 64 then
    if w < 2 ^ 64 then some (.t (BitVec.ofNat 64 w)) else none
  else none

/-- The operation the decoder reads from a word of the opcode table. -/
def decodeTableWord (nbits w : Nat) : Option Instr :=
  match codedOfTable nbits w with
  | some c => (decode c).toOption
  | none => none

/-! ### The opcode map as rows (R95 to R97) -/

/-- One row of the opcode map: a word spells the mnemonic when it equals `value` under `mask`. -/
structure OpRow (w : Nat) where
  mnemonic : String
  value : BitVec w
  mask : BitVec w
  deriving DecidableEq, Repr

def OpRow.covers {w : Nat} (row : OpRow w) (x : BitVec w) : Bool := x &&& row.mask == row.value

/-- The four rows of R95. -/
def rowsT : List (OpRow 64) :=
  [⟨"RD", 0x0000000000000000#64, 0xE000000000000000#64⟩,
   ⟨"WR", 0x4000000000000000#64, 0xE000000000000000#64⟩,
   ⟨"RDM", 0x8000000000000000#64, 0xE000000000000000#64⟩,
   ⟨"WRM", 0xC000000000000000#64, 0xE000000000000000#64⟩]

/-- The three rows of R96. -/
def rowsC : List (OpRow 32) :=
  [⟨"NOP", 0x00000000#32, 0xFFFFFFFF#32⟩,
   ⟨"START", 0x00000001#32, 0xFFFFFFFF#32⟩,
   ⟨"CLR", 0x00000002#32, 0xFFFFFFFF#32⟩]

/-- The nineteen rows of R97. -/
def rowsS : List (OpRow 11) :=
  [⟨"LDW", 0x080#11, 0x7F0#11⟩, ⟨"CPW", 0x100#11, 0x7F0#11⟩, ⟨"XW", 0x110#11, 0x7F0#11⟩,
   ⟨"XW", 0x120#11, 0x7E0#11⟩, ⟨"XW", 0x140#11, 0x7F0#11⟩, ⟨"LDS", 0x180#11, 0x7FF#11⟩,
   ⟨"RND0", 0x200#11, 0x7F0#11⟩, ⟨"RND0", 0x210#11, 0x7FC#11⟩, ⟨"RND1", 0x214#11, 0x7FC#11⟩,
   ⟨"RND1", 0x218#11, 0x7F8#11⟩]
  ++
  [⟨"RND1", 0x220#11, 0x7F8#11⟩, ⟨"RND2", 0x228#11, 0x7F8#11⟩, ⟨"RND2", 0x230#11, 0x7F8#11⟩,
   ⟨"RND2", 0x238#11, 0x7FC#11⟩, ⟨"RND3", 0x23C#11, 0x7FC#11⟩, ⟨"RND3", 0x240#11, 0x7F0#11⟩,
   ⟨"FOLD", 0x280#11, 0x7FF#11⟩, ⟨"HEXW", 0x300#11, 0x7FC#11⟩, ⟨"HEXW", 0x304#11, 0x7FF#11⟩]

end Sys2Proof
end

