-- ==== Sys2Proof/Machine/State.lean ====
section
/-! DEFINITION. The state of one engine and of its host port as plain data (`10_state.md` R20,
R49; `20_memory.md` R64, R70), the reasons a step stops, and the state at reset. -/

namespace Sys2Proof.Machine

/-- M space (`10_state.md` R45, `20_memory.md` R62): `size` is `MSG_CAP`, the number of bytes that
exist. `cells` lists the bytes written since power-on, addresses strictly rising; an unlisted
address was never written. `life` says which power-on drew the unlisted contents (logs 5, 6). -/
structure Memory where
  size : Nat
  life : Nat
  cells : List Host.Cell
  deriving DecidableEq, Repr

/-- The complete state of one engine: exactly the components of `10_state.md` R20. -/
structure Engine where
  H : Vector Word 5
  A : Word
  B : Word
  C : Word
  D : Word
  E : Word
  BLK : Vector Word 16
  W : Vector Word 80
  DIG : Vector Byte 40
  LEN : Word
  NBLK : BitVec 24
  BI : BitVec 24
  STG : BitVec 4
  J : Index
  ECODE : BitVec 4
  M : Memory
  deriving DecidableEq, Repr

/-- One place of the total order of `20_memory.md` R70. -/
inductive Turn where
  /-- The host issues the transaction with this format T packing (`30_encoding.md` R91). -/
  | host (w : BitVec 64)
  /-- The engine has its turn. -/
  | engine
  /-- The reset input (`70_reset_and_hazards.md` R230). -/
  | reset
  deriving DecidableEq, Repr

/-- The engine, the read data of its port (R64, log 3), the turns still to come in the order the
outside world fixes (R70, log 1) and the number of `any` values drawn so far (R12, log 7). -/
structure State where
  engine : Engine
  rdata : Option Word
  turns : List Turn
  draws : Nat
  deriving DecidableEq, Repr

/-- Why the machine stops. -/
inductive Fault where
  /-- Raised by a step whose turn is the engine's when the control word is outside R35's set:
  "a model gives such a state no step" (`30_encoding.md` R99). No instruction raises it. Safe: no
  next state is claimed (log 13). -/
  | unreachableControlWord
  deriving DecidableEq, Repr

/-- Why the machine has no meaning for what it was given. -/
inductive Refusal where
  /-- Raised by an arm of `exec` whose instruction has no meaning yet. Safe. -/
  | notModelled (mnemonic : String)
  /-- Raised by a step whose turn is the host's when the packing has `z = 1`, which "spells no
  transaction" (`30_encoding.md` R99). No instruction raises it. Safe (log 13). -/
  | invalidTransaction
  deriving DecidableEq, Repr

/-- What a step answers. -/
abbrev Result := Host.Outcome State Fault Refusal

/-- The registers after reset: the control registers 0 (R49, R230), the datapath registers, which
R49 leaves unspecified, 0 (DESIGN CHOICE, unsafe, log 8), and message memory `m`. -/
def Engine.afterReset (m : Memory) : Engine where
  H := Vector.replicate 5 0#32
  A := 0#32
  B := 0#32
  C := 0#32
  D := 0#32
  E := 0#32
  BLK := Vector.replicate 16 0#32
  W := Vector.replicate 80 0#32
  DIG := Vector.replicate 40 0#8
  LEN := 0#32
  NBLK := 0#24
  BI := 0#24
  STG := 0#4
  J := 0#7
  ECODE := 0#4
  M := m

/-- Power-on of an instance with `cap` message bytes (`70_reset_and_hazards.md` R232); `life` names
the draw of its unspecified contents. -/
def State.powerOn (cap life : Nat) : State where
  engine := Engine.afterReset { size := cap, life := life, cells := [] }
  rdata := none
  turns := []
  draws := 0

/-- The machine right after reset, with the default `MSG_CAP` (`00_scope.md` R9). -/
def State.reset : State := State.powerOn Config.msgCapMax 0

end Sys2Proof.Machine
end

