-- ==== Sys2Proof/Machine/Operands.lean ====
section
/-! DEFINITION. Word operations and constants of the datapath (`00_scope.md` R11, `10_state.md`
R23, `43_compression_round.md` R171, R173, `44_digest_encoding.md` R191) and the access to register
files. -/

namespace Sys2Proof.Machine

/-- `rotl(x, n)` of R11, for `0 < n < 32`. For every other `n` the rule gives no value and the model a
free one (DESIGN CHOICE, log 23); the engine uses `n` = 1, 5, 30 only (U7). -/
def rotl (x : Word) (n : Nat) : Word :=
  if 0 < n ∧ n < 32 then (x <<< n) ||| (x >>> (32 - n)) else Config.undefinedRotl x n

/-- The initial state constants `IV` (R23). -/
def iv : Vector Word 5 :=
  #v[0x67452301#32, 0xEFCDAB89#32, 0x98BADCFE#32, 0x10325476#32, 0xC3D2E1F0#32]

/-- The phase constants `K` (R171). -/
def phaseConst (p : Fin 4) : Word :=
  match p with
  | 0 => 0x5A827999#32
  | 1 => 0x6ED9EBA1#32
  | 2 => 0x8F1BBCDC#32
  | 3 => 0xCA62C1D6#32

/-- The round functions `f_p` (R173): choose, parity, majority, parity. -/
def phaseFn (p : Fin 4) (b c d : Word) : Word :=
  match p with
  | 0 => (b &&& c) ||| (~~~b &&& d)
  | 1 => b ^^^ c ^^^ d
  | 2 => (b &&& c) ||| (b &&& d) ||| (c &&& d)
  | 3 => b ^^^ c ^^^ d

/-- The new value of `A` in one round of phase `p` with schedule word `w` (R178). -/
def roundSum (p : Fin 4) (a b c d e w : Word) : Word :=
  rotl a 5 + phaseFn p b c d + e + phaseConst p + w

/-- `rotl(x XOR y XOR z XOR u, 1)`, the derived schedule word of R162. -/
def scheduleMix (x y z u : Word) : Word := rotl (x ^^^ y ^^^ z ^^^ u) 1

/-- `a ‖ b ‖ c ‖ d`: the first byte is the most significant (`20_memory.md` R65). -/
def wordOfBytes (a b c d : Byte) : Word := (a ++ b ++ c ++ d).cast rfl

/-- `hexchar(n)` of R191. -/
def hexchar (n : BitVec 4) : Byte :=
  if n.toNat ≤ 9 then 0x30#8 + n.setWidth 8 else 0x57#8 + n.setWidth 8

/-- Nibble `n` of a word, most significant first: bits `31 - 4n` down to `28 - 4n` (R190), for
`n <= 7`; the model's choice past that is log 11. -/
def nibble (x : Word) (n : Nat) : BitVec 4 := x.extractLsb' (28 - 4 * n) 4

/-- Element `i` of a register file; 0 past its end, which no well-formed operation reads (log 11). -/
def rget {w n : Nat} (v : Vector (BitVec w) n) (i : Nat) : BitVec w :=
  if h : i < n then v[i] else 0#w

/-- A register file with element `i` replaced; unchanged for `i` past its end (log 11). -/
def rset {w n : Nat} (v : Vector (BitVec w) n) (i : Nat) (x : BitVec w) : Vector (BitVec w) n :=
  v.setIfInBounds i x

end Sys2Proof.Machine
end

