-- ==== Sys2Proof/Machine/Flags.lean ====
section
/-! DEFINITION. The three status flags and the `STATUS` word (`10_state.md` R32, R37, R40): functions
of `STG` and `ECODE`, not state. -/

namespace Sys2Proof.Machine

/-- `BUSY` is `1 <= STG <= 6` (R32). -/
def Engine.isBusy (e : Engine) : Bool := 1 ≤ e.STG.toNat && e.STG.toNat ≤ 6

/-- `DONE` is `STG = 7` (R37). -/
def Engine.isDone (e : Engine) : Bool := e.STG == Stage.done

/-- `ERR` is `STG = 15` (R37). -/
def Engine.isFault (e : Engine) : Bool := e.STG == Stage.fault

/-- The flag `b` at bit `i` of a word. -/
def flagAt (b : Bool) (i : Nat) : Word := (BitVec.ofBool b).setWidth 32 <<< i

/-- The `STATUS` word (R40, R120). -/
def Engine.status (e : Engine) : Word :=
  (e.ECODE.setWidth 32 <<< 4) ||| flagAt e.isFault 2 ||| flagAt e.isDone 1 ||| flagAt e.isBusy 0

end Sys2Proof.Machine
end

