-- ==== Sys2Proof/Machine/Ops.lean ====
section
/-! DEFINITION. The operations the meanings share: message memory, the sequencer, fault entry and
return (`60_exceptions.md` R204, R211), reset, and what the port returns (`20_memory.md` R64). -/

namespace Sys2Proof.Machine

/-! ### Message memory -/

/-- The cell list with address `a` holding `b`, in rising order. -/
def writeCells (a : Nat) (b : Byte) : List Host.Cell → List Host.Cell
  | [] => [(a, b)]
  | c :: cs =>
    if a < c.1 then (a, b) :: c :: cs
    else if a = c.1 then (a, b) :: cs
    else c :: writeCells a b cs

/-- The byte a cell list holds at `a`, none for an address it does not list. -/
def readCells (a : Nat) : List Host.Cell → Option Byte
  | [] => none
  | c :: cs => if c.1 = a then some c.2 else readCells a cs

/-- What an unlisted address reads as: its unspecified power-on content (R49, log 6). -/
def Memory.unlisted (m : Memory) (a : Nat) : Byte := Config.powerOnByte m.life a

/-- `MemRead(a, 1)`: the byte last written to `a`, or its power-on content (R63). -/
def Memory.byteAt (m : Memory) (a : Nat) : Byte := (readCells a m.cells).getD (m.unlisted a)

/-- `MemWrite(a, 1, b)` for `a < MSG_CAP`; no other address holds a byte (R75). -/
def Memory.write (m : Memory) (a : Nat) (b : Byte) : Memory :=
  if a < m.size then { m with cells := writeCells a b m.cells } else m

/-- The canonical form: addresses strictly rising, each one that exists, and a legal `MSG_CAP`
(R9). An unlisted address holds no written byte, so no entry repeats it. -/
abbrev Memory.wf (m : Memory) : Prop :=
  m.cells.Pairwise (fun x y => x.1 < y.1) ∧ (∀ c ∈ m.cells, c.1 < m.size) ∧ m.size ≤ Config.msgCapMax

/-! ### The sequencer -/

/-- `seq <- (s, j)` (`00_scope.md` R12). -/
def Engine.seq (e : Engine) (s : BitVec 4) (j : Index) : Engine := { e with STG := s, J := j }

/-- `seq` after a micro-operation with index `j`: at the stage's last index the next stage with
index 0, else the same stage with `j + 1` (`30_encoding.md` R98). -/
def Engine.advance (e : Engine) (stage : BitVec 4) (j last : Index) (next : BitVec 4) : Engine :=
  if j = last then e.seq next 0#7 else e.seq stage (j + 1#7)

/-! ### Faults -/

/-- The three fault causes (`60_exceptions.md` R200). -/
inductive Cause where
  | inputTooLarge
  | illegalCommand
  | busyViolation
  deriving DecidableEq, Repr

/-- The code of a cause in `ECODE` (R200). -/
def Cause.code : Cause → BitVec 4
  | .inputTooLarge => 1#4
  | .illegalCommand => 2#4
  | .busyViolation => 3#4

/-- Fault entry, `raise F` (R204): the cause, stage FAULT, and nothing else. -/
def Engine.raise (e : Engine) (k : Cause) : Engine :=
  { e with ECODE := k.code }.seq Stage.fault 0#7

/-- Return from a fault, the effect of `CLR` (R127, R211). -/
def Engine.clear (e : Engine) : Engine :=
  { e with ECODE := 0#4 }.seq Stage.idle 0#7

/-! ### Reset -/

/-- The reset event on the engine (`70_reset_and_hazards.md` R230): `M` is unchanged. -/
def Engine.reset (e : Engine) : Engine := Engine.afterReset e.M

/-- The reset event: an unfinished read of the port is lost with it (log 3); the outside world's
turns and the draws are not the block's to reset. -/
def State.resetEvent (s : State) : State :=
  { s with engine := s.engine.reset, rdata := none }

/-! ### What a transaction returns, and what a micro-operation changes -/

/-- A read returns a value, or `any` where the rule gives none, drawn afresh (R12, log 7). -/
def State.answer (s : State) (v : Option Word) : State :=
  match v with
  | some x => { s with rdata := some x }
  | none => { s with rdata := some (Config.anyWord s.engine.M.life s.draws), draws := s.draws + 1 }

/-- A write transaction with effect `f` on the engine; it returns nothing (R64). -/
def State.hostWrite (s : State) (f : Engine → Engine) : State :=
  { s with engine := f s.engine, rdata := none }

/-- A micro-operation with effect `f` on the engine. -/
def State.microOp (s : State) (f : Engine → Engine) : State :=
  { s with engine := f s.engine }

end Sys2Proof.Machine
end

