-- ==== Sys2Proof/Machine/Compression.lean ====
section
/-! DEFINITION. The micro-operations `LDS`, `RND0` to `RND3` and `FOLD`
(`43_compression_round.md` R172 to R180). -/

namespace Sys2Proof.Machine

/-- The effect of `LDS` (R172). -/
def Engine.loadWorking (e : Engine) : Engine :=
  { e with A := rget e.H 0, B := rget e.H 1, C := rget e.H 2, D := rget e.H 3, E := rget e.H 4 }.seq
    Stage.rnd 0#7

/-- `LDS` (R172). -/
def execLds (s : State) : Result := .next (s.microOp (·.loadWorking))

/-- `ROUND(p)` with `J = j`; every right-hand side is the value before the step (R178). -/
def Engine.roundStep (e : Engine) (p : Fin 4) (j : Index) : Engine :=
  { e with
    A := roundSum p e.A e.B e.C e.D e.E (rget e.W j.toNat)
    B := e.A
    C := rotl e.B 30
    D := e.C
    E := e.D }.advance Stage.rnd j 79#7 Stage.fold

/-- `RND0` (R174). -/
def execRnd0 (j : Index) (s : State) : Result := .next (s.microOp (·.roundStep 0 j))

/-- `RND1` (R175). -/
def execRnd1 (j : Index) (s : State) : Result := .next (s.microOp (·.roundStep 1 j))

/-- `RND2` (R176). -/
def execRnd2 (j : Index) (s : State) : Result := .next (s.microOp (·.roundStep 2 j))

/-- `RND3` (R177). -/
def execRnd3 (j : Index) (s : State) : Result := .next (s.microOp (·.roundStep 3 j))

/-- The running state with the working registers added in, each modulo `2^32` (R180). -/
def Engine.foldedH (e : Engine) : Vector Word 5 :=
  #v[rget e.H 0 + e.A, rget e.H 1 + e.B, rget e.H 2 + e.C, rget e.H 3 + e.D, rget e.H 4 + e.E]

/-- The effect of `FOLD` (R180). -/
def Engine.foldState (e : Engine) : Engine :=
  if e.BI.toNat + 1 < e.NBLK.toNat then
    { e with H := e.foldedH, BI := e.BI + 1#24 }.seq Stage.seg 0#7
  else
    { e with H := e.foldedH }.seq Stage.enc 0#7

/-- `FOLD` (R180). -/
def execFold (s : State) : Result := .next (s.microOp (·.foldState))

end Sys2Proof.Machine
end

