-- ==== Sys2Proof/Machine/Padding.lean ====
section
/-! DEFINITION. The padded stream and the micro-operation `LDW`
(`41_padding_segmentation.md` R141 to R147). -/

namespace Sys2Proof.Machine

/-- `PB(i)`, byte `i` of the padded stream, for `i < P = 64 * NBLK` (R142). Past the stream's end the
rule defines no byte: a free value, which no reachable state reads (log 9). -/
def Engine.paddedByte (e : Engine) (i : Nat) : Byte :=
  let len := e.LEN.toNat
  let p := 64 * e.NBLK.toNat
  if p ≤ i then Config.beyondStream i
  else if i < len then e.M.byteAt i
  else if i = len then 0x80#8
  else if i < p - 8 then 0x00#8
  else BitVec.ofNat 8 ((8 * len) >>> (8 * (p - 1 - i)))

/-- `PW(b, t)`, word `t` of block `b`, big-endian (R146). -/
def Engine.paddedWord (e : Engine) (b t : Nat) : Word :=
  wordOfBytes (e.paddedByte (64 * b + 4 * t)) (e.paddedByte (64 * b + 4 * t + 1))
    (e.paddedByte (64 * b + 4 * t + 2)) (e.paddedByte (64 * b + 4 * t + 3))

/-- The effect of `LDW` with `J = t` on block `BI` (R147). -/
def Engine.loadWord (e : Engine) (t : Index) : Engine :=
  { e with BLK := rset e.BLK t.toNat (e.paddedWord e.BI.toNat t.toNat) }.advance
    Stage.seg t 15#7 Stage.xpd

/-- `LDW` (R147). -/
def execLdw (t : Index) (s : State) : Result := .next (s.microOp (·.loadWord t))

end Sys2Proof.Machine
end

