-- ==== Sys2Proof/Machine/Schedule.lean ====
section
/-! DEFINITION. The micro-operations `CPW` and `XW` (`42_schedule_expansion.md` R163, R164). -/

namespace Sys2Proof.Machine

/-- The effect of `CPW` with `J = j` (R163). -/
def Engine.copyWord (e : Engine) (j : Index) : Engine :=
  { e with W := rset e.W j.toNat (rget e.BLK j.toNat) }.seq Stage.xpd (j + 1#7)

/-- `CPW` (R163). -/
def execCpw (j : Index) (s : State) : Result := .next (s.microOp (·.copyWord j))

/-- The schedule word `XW` derives at index `j` (R162, R164). -/
def Engine.derivedWord (e : Engine) (j : Nat) : Word :=
  scheduleMix (rget e.W (j - 3)) (rget e.W (j - 8)) (rget e.W (j - 14)) (rget e.W (j - 16))

/-- The effect of `XW` with `J = j` (R164). -/
def Engine.deriveWord (e : Engine) (j : Index) : Engine :=
  { e with W := rset e.W j.toNat (e.derivedWord j.toNat) }.advance Stage.xpd j 79#7 Stage.lds

/-- `XW` (R164). -/
def execXw (j : Index) (s : State) : Result := .next (s.microOp (·.deriveWord j))

end Sys2Proof.Machine
end

