-- ==== Sys2Proof/Machine/Serializer.lean ====
section
/-! DEFINITION. The micro-operation `HEXW` (`44_digest_encoding.md` R192). -/

namespace Sys2Proof.Machine

/-- `DIG` with the eight characters of word `x` at positions `8i .. 8i+7` (R192). -/
def writeDigits (d : Vector Byte 40) (i : Nat) (x : Word) : Vector Byte 40 :=
  (List.range 8).foldl (fun d n => rset d (8 * i + n) (hexchar (nibble x n))) d

/-- The effect of `HEXW` with `J = i` (R192). -/
def Engine.encodeWord (e : Engine) (i : Index) : Engine :=
  { e with DIG := writeDigits e.DIG i.toNat (rget e.H i.toNat) }.advance Stage.enc i 4#7 Stage.done

/-- `HEXW` (R192). -/
def execHexw (i : Index) (s : State) : Result := .next (s.microOp (·.encodeWord i))

end Sys2Proof.Machine
end

