-- ==== Sys2Proof/Machine/Commands.lean ====
section
/-! DEFINITION. The commands `NOP`, `START`, `CLR` and their dispatch
(`40_host_commands.md` R124 to R127). -/

namespace Sys2Proof.Machine

/-- `NBLK` for a message of `LEN` bytes: `floor((LEN + 72) / 64)` (R30, R126), for a length that
`START` accepts; the model's choice for others is log 11. -/
def blockCount (len : Word) : BitVec 24 := BitVec.ofNat 24 ((len.toNat + 72) / 64)

/-- `START` in IDLE or DONE (R126). -/
def Engine.start (e : Engine) : Engine :=
  if 2 ^ 29 ≤ e.LEN.toNat ∨ e.M.size < e.LEN.toNat then e.raise .inputTooLarge
  else { e with H := iv, NBLK := blockCount e.LEN, BI := 0#24 }.seq Stage.seg 0#7

/-- `command(v)`, what a write of `v` to `CMD` does; the first check that applies decides (R124). -/
def Engine.command (e : Engine) (v : Word) : Engine :=
  if e.isFault then
    if v = 0x00000002#32 then e.clear else e
  else if v.extractLsb' 4 28 ≠ 0#28 ∨ 3 ≤ (v.extractLsb' 0 4).toNat then e.raise .illegalCommand
  else if v.extractLsb' 0 4 = 0#4 then e
  else if e.isBusy then e.raise .busyViolation
  else if v.extractLsb' 0 4 = 1#4 then e.start
  else e.clear

/-- `NOP` is `WR CMD, 0` (R101, R125). -/
def execNop (s : State) : Result := .next (s.hostWrite (·.command 0x00000000#32))

/-- `START` is `WR CMD, 1` (R101, R126). -/
def execStart (s : State) : Result := .next (s.hostWrite (·.command 0x00000001#32))

/-- `CLR` is `WR CMD, 2` (R101, R127). -/
def execClr (s : State) : Result := .next (s.hostWrite (·.command 0x00000002#32))

end Sys2Proof.Machine
end

