-- ==== Sys2Proof/Machine/Transactions.lean ====
section
/-! DEFINITION. The host transactions `RD`, `WR`, `RDM`, `WRM` (`40_host_commands.md` R120 to R123). -/

namespace Sys2Proof.Machine

/-- `DIG[4i] ‖ DIG[4i+1] ‖ DIG[4i+2] ‖ DIG[4i+3]` (`10_state.md` R43). -/
def Engine.digestWord (e : Engine) (i : Nat) : Word :=
  wordOfBytes (rget e.DIG (4 * i)) (rget e.DIG (4 * i + 1)) (rget e.DIG (4 * i + 2))
    (rget e.DIG (4 * i + 3))

/-- What `RD` of a register returns; none stands for `any` (R120). -/
def Engine.readReg (e : Engine) (r : Reg) : Option Word :=
  match r with
  | .cmd => some 0x00000000#32
  | .status => some e.status
  | .len => some e.LEN
  | .h i => if e.isDone then some (rget e.H i.val) else none
  | .digw i => if e.isDone then some (e.digestWord i.val) else none
  | .reserved _ => some 0x00000000#32

/-- `RD n` (R120). -/
def execRd (r : Reg) (s : State) : Result := .next (s.answer (s.engine.readReg r))

/-- What `WR` of `v` to a register does to the engine (R121). -/
def Engine.writeReg (e : Engine) (r : Reg) (v : Word) : Engine :=
  match r with
  | .cmd => e.command v
  | .len => if e.isBusy then e.raise .busyViolation else { e with LEN := v }
  | .status => e
  | .h _ => e
  | .digw _ => e
  | .reserved _ => e

/-- `WR n, v` (R121). -/
def execWr (r : Reg) (v : Word) (s : State) : Result := .next (s.hostWrite (·.writeReg r v))

/-- What `RDM a` returns: a byte that exists, zero-extended, or 0 (R122, R75). -/
def Engine.readMessage (e : Engine) (a : Nat) : Word :=
  if a < e.M.size then (e.M.byteAt a).setWidth 32 else 0x00000000#32

/-- `RDM a` (R122). -/
def execRdm (a : Addr) (s : State) : Result := .next (s.answer (some (s.engine.readMessage a.toNat)))

/-- What `WRM a, b` does to the engine; the busy check comes first (R123, R75). -/
def Engine.writeMessage (e : Engine) (a : Nat) (b : Byte) : Engine :=
  if e.isBusy then e.raise .busyViolation else { e with M := e.M.write a b }

/-- `WRM a, b` (R123). -/
def execWrm (a : Addr) (b : Byte) (s : State) : Result :=
  .next (s.hostWrite (·.writeMessage a.toNat b))

end Sys2Proof.Machine
end

