-- ==== Sys2Proof/Machine/Dispatch.lean ====
section
/-! DEFINITION. One arm per operation, each a direct call of its meaning. -/

namespace Sys2Proof.Machine

def exec (i : Instr) (s : State) : Host.Outcome State Fault Refusal :=
  match i with
  -- bus transactions (`40_host_commands.md` R120 to R123)
  | .rd r => Sys2Proof.Machine.execRd r s
  | .wr r v => Sys2Proof.Machine.execWr r v s
  | .rdm a => Sys2Proof.Machine.execRdm a s
  | .wrm a b => Sys2Proof.Machine.execWrm a b s
  -- commands (R124 to R127)
  | .nop => Sys2Proof.Machine.execNop s
  | .start => Sys2Proof.Machine.execStart s
  | .clr => Sys2Proof.Machine.execClr s
  -- micro-operations (`41_padding_segmentation.md` R147, `42_schedule_expansion.md` R163, R164)
  | .ldw t => Sys2Proof.Machine.execLdw t s
  | .cpw j => Sys2Proof.Machine.execCpw j s
  | .xw j => Sys2Proof.Machine.execXw j s
  -- (`43_compression_round.md` R172 to R180)
  | .lds => Sys2Proof.Machine.execLds s
  | .rnd0 j => Sys2Proof.Machine.execRnd0 j s
  | .rnd1 j => Sys2Proof.Machine.execRnd1 j s
  | .rnd2 j => Sys2Proof.Machine.execRnd2 j s
  | .rnd3 j => Sys2Proof.Machine.execRnd3 j s
  | .fold => Sys2Proof.Machine.execFold s
  -- (`44_digest_encoding.md` R192)
  | .hexw k => Sys2Proof.Machine.execHexw k s

end Sys2Proof.Machine
end

