-- ==== Sys2Proof/Machine/Fetch.lean ====
section
/-! DEFINITION. What the next turn of the total order spells (`20_memory.md` R70): the host's
transaction, decoded in two steps when it is a write of `CMD` (`30_encoding.md` R90, R103), or the
micro-operation the sequencer word selects (`10_state.md` R31). -/

namespace Sys2Proof.Machine

/-- What a turn comes to. -/
inductive Fetched where
  /-- This operation runs. -/
  | run (i : Instr)
  /-- The engine has no step in IDLE, DONE and FAULT (R98, `60_exceptions.md` R218). -/
  | wait
  /-- The reset event. -/
  | reset
  /-- A packing that spells no transaction (R99). -/
  | invalid
  /-- A control word that spells nothing (R99). -/
  | unreachable
  deriving DecidableEq, Repr

/-- The second decoding step: a write of `CMD` with a defined command word is that command
(R90, R101); any other word stays the write, which R124 judges (log 14). -/
def asCommand (r : Reg) (v : Word) : Instr :=
  match r, decodeC v with
  | .cmd, .ok c => c
  | r, _ => .wr r v

/-- What a host transaction spells. -/
def fetchHost (w : BitVec 64) : Fetched :=
  match decodeT w with
  | .ok (.wr r v) => .run (asCommand r v)
  | .ok i => .run i
  | .error _ => .invalid

/-- What the sequencer word spells. -/
def fetchEngine (e : Engine) : Fetched :=
  match decodeS (controlWord e.STG e.J) with
  | .ok i => .run i
  | .error .idleWord => .wait
  | .error _ => .unreachable

/-- The turn at hand. When no turn is listed any more, the engine has every further turn (log 2). -/
def State.turn (s : State) : Turn := s.turns.head?.getD .engine

/-- What the turn at hand comes to. A host transaction or the reset event is taken whatever the control
word is: R99 gives a state outside R35's set no step, R64 says that every transaction completes and
R230 that reset may occur in any stage, and the model lets those two turns run there as in any other
state (DESIGN CHOICE, log 21); the engine's own turn there has no next state (log 13). -/
def State.fetch (s : State) : Fetched :=
  match s.turn with
  | .host w => fetchHost w
  | .engine => fetchEngine s.engine
  | .reset => .reset

/-- The state with the turn at hand taken. -/
def State.taken (s : State) : State := { s with turns := s.turns.tail }

/-- The state with turn `t` put before the others. -/
def State.withTurn (s : State) (t : Turn) : State := { s with turns := t :: s.turns }

/-- `s` with the turns to come being `ts`. -/
def State.withTurns (s : State) (ts : List Turn) : State := { s with turns := ts }

/-- The state in which the next turn runs a coded operation: a transaction is put on the port, a
command is put there as the data of `WR CMD`, a control word is put into the sequencer (log 4). -/
def State.withCoded (s : State) (c : Coded) : State :=
  match c with
  | .t w => s.withTurn (.host w)
  | .c w => s.withTurn (.host (packT ⟨false, true, Reg.addr .cmd, w⟩))
  | .s w => { s with engine := s.engine.seq (controlStage w) (controlIndex w) }.withTurn .engine

end Sys2Proof.Machine
end

