-- ==== Sys2Proof/Machine/Step.lean ====
section
/-! DEFINITION. One step of the total order of `20_memory.md` R70. -/

namespace Sys2Proof.Machine

/-- One turn: a host transaction, a micro-operation, a turn the engine has no step for, or the reset
event, each atomic (`00_scope.md` R13). -/
def step (s : State) : Host.Outcome State Fault Refusal :=
  match s.fetch with
  | .run i => exec i s.taken
  | .wait => .next s.taken
  | .reset => .next s.taken.resetEvent
  | .invalid => .refused .invalidTransaction
  | .unreachable => .fault .unreachableControlWord

/-- `s` with a word of the opcode table placed where the next step fetches (log 4, log 18). -/
def State.withFetchWord (s : State) (nbits w : Nat) : State :=
  match codedOfTable nbits w with
  | some c => s.withCoded c
  | none => s

end Sys2Proof.Machine
end

