-- ==== Sys2Proof/Machine/Platform.lean ====
section
/-! DEFINITION. A platform of `N_ENGINES` instances that share nothing (`60_exceptions.md` R216). -/

namespace Sys2Proof.Machine

/-- The instances, each with its own complete state, M space and R space. -/
structure Platform where
  members : List State
  deriving DecidableEq, Repr

/-- Power-on of `n` instances with `cap` message bytes each: all in IDLE together (R216). The number
of an instance only names the draw of its own unspecified contents; no register shows it. -/
def Platform.powerOn (n cap : Nat) : Platform :=
  ⟨(List.range n).map (State.powerOn cap)⟩

/-- The reset event of the platform: every instance takes it, and all are in IDLE together (R216). -/
def Platform.resetEvent (p : Platform) : Platform := ⟨p.members.map State.resetEvent⟩

/-- One step of instance `k`; the order between instances is not determined. A reset turn is the
platform's reset, whichever instance's list it stands in: R216 has all instances leave reset together
(DEDUCED, log 15). -/
def Platform.stepMember (p : Platform) (k : Fin p.members.length) :
    Host.Outcome Platform Fault Refusal :=
  match step p.members[k] with
  | .next t =>
    let q : Platform := ⟨p.members.set k t⟩
    .next (if p.members[k].turn = .reset then q.resetEvent else q)
  | .fault r => .fault r
  | .refused r => .refused r

end Sys2Proof.Machine
end

