-- ==== Sys2Proof/Machine/Programs.lean ====
section
/-! DEFINITION. The textual syntax of the operations and the pseudo-instructions as the host
performs them (`30_encoding.md` R101, R102; `40_host_commands.md` R128). No meaning depends on this file. -/

namespace Sys2Proof.Machine

/-! ### Textual syntax (R101) -/

/-- The name of a register; a reserved register is written by its address. -/
def regName : Reg → String
  | .cmd => "CMD"
  | .status => "STATUS"
  | .len => "LEN"
  | .h i => "H" ++ i.val.repr
  | .digw i => "DIGW" ++ i.val.repr
  | .reserved a => a.toNat.repr

/-- An operation as one line of text, its numbers decimal (`00_scope.md` R10). `LDW` also shows the
block index `bi`, which is not part of its control word (R93, R101). -/
def textOf (bi : Nat) : Instr → String
  | .rd r => "RD " ++ regName r
  | .wr r v => "WR " ++ regName r ++ ", " ++ v.toNat.repr
  | .rdm a => "RDM " ++ a.toNat.repr
  | .wrm a b => "WRM " ++ a.toNat.repr ++ ", " ++ b.toNat.repr
  | .nop => "NOP"
  | .start => "START"
  | .clr => "CLR"
  | .ldw t => "LDW " ++ bi.repr ++ "," ++ t.toNat.repr
  | .cpw j => "CPW " ++ j.toNat.repr
  | .xw j => "XW " ++ j.toNat.repr
  | .lds => "LDS"
  | .rnd0 j => "RND0 " ++ j.toNat.repr
  | .rnd1 j => "RND1 " ++ j.toNat.repr
  | .rnd2 j => "RND2 " ++ j.toNat.repr
  | .rnd3 j => "RND3 " ++ j.toNat.repr
  | .fold => "FOLD"
  | .hexw i => "HEXW " ++ i.toNat.repr

/-! ### Pseudo-instructions (R102) -/

/-- The turn in which an operation runs: the host issues a transaction, or a command as `WR CMD`; a
micro-operation is the engine's own and cannot be supplied (R90). -/
def issue (i : Instr) : Turn :=
  match encode i with
  | .t w => .host w
  | .c w => .host (packT ⟨false, true, Reg.addr .cmd, w⟩)
  | .s _ => .engine

/-- The turns `ts` from `s` on. -/
def play (ts : List Turn) (s : State) : Result := Sys2Proof.core.run ts.length (s.withTurns ts)

/-- What the transactions of the next `n` turns return, in order: the read data after each host turn
that leaves some. -/
def answers : Nat → State → List Word
  | 0, _ => []
  | n + 1, s =>
    match step s with
    | .next t =>
      match s.turn, t.rdata with
      | .host _, some x => x :: answers n t
      | _, _ => answers n t
    | .fault _ => []
    | .refused _ => []

/-- The address operand for byte `a` of a message: `a` itself as far as 29 bits spell it. R102 does not
say how `WRM a` is spelled beyond; the model then uses the address `2^29 - 1`, which names no byte under
any `MSG_CAP` (`00_scope.md` R9), so that the byte is ignored as R75 says (DESIGN CHOICE, log 22). -/
def byteAddr (a : Nat) : Addr := BitVec.ofNat 29 (min a (2 ^ 29 - 1))

/-- The operand of `WR LEN, L`: `L` itself as far as 32 bits spell it. R102 does not say how a greater
`L` is spelled; the model then uses `2^32 - 1`, which `START` refuses as it must refuse `L` (DESIGN
CHOICE, log 22). -/
def lenWord (n : Nat) : Word := BitVec.ofNat 32 (min n (2 ^ 32 - 1))

/-- `WRM` of the bytes of `m` at rising addresses from `a`. -/
def storeBytes (a : Nat) : List Byte → List Turn
  | [] => []
  | b :: m => issue (.wrm (byteAddr a) b) :: storeBytes (a + 1) m

/-- `LOADMSG b0 b1 ...`. -/
def loadMsg (m : List Byte) : List Turn :=
  storeBytes 0 m ++ [issue (.wr .len (lenWord m.length))]

/-- One poll of `WAIT`: the turns `g` that come before it, then `RD STATUS`; the state and the value
read. None when a turn of `g` has no next state. -/
def poll (g : List Turn) (s : State) : Option (State × Word) :=
  match play g s with
  | .next t =>
    match play [issue (.rd .status)] t with
    | .next u => u.rdata.map (fun x => (u, x))
    | .fault _ => none
    | .refused _ => none
  | .fault _ => none
  | .refused _ => none

/-- `WAIT`: polls of `STATUS` until the value read has `BUSY = 0`; the state after the last poll and the
value it read. `gaps` are the turns that come before each poll, an order R70 leaves open (log 20). None
when the gaps are used up with the engine still BUSY. -/
def wait : List (List Turn) → State → Option (State × Word)
  | [], _ => none
  | g :: gs, s =>
    match poll g s with
    | some (t, x) => if x.getLsbD 0 = true then wait gs t else some (t, x)
    | none => none

/-- `READHEX`. -/
def readHex : List Turn :=
  [issue (.rd (.digw 0)), issue (.rd (.digw 1)), issue (.rd (.digw 2)), issue (.rd (.digw 3)),
    issue (.rd (.digw 4)), issue (.rd (.digw 5)), issue (.rd (.digw 6)), issue (.rd (.digw 7)),
    issue (.rd (.digw 8)), issue (.rd (.digw 9))]

/-- `READBIN`. -/
def readBin : List Turn :=
  [issue (.rd (.h 0)), issue (.rd (.h 1)), issue (.rd (.h 2)), issue (.rd (.h 3)), issue (.rd (.h 4))]

/-- What `DIGEST` ends with: the state when `WAIT` ended, the status it read, and the words `READHEX`
returned, none where the input was too large. -/
structure Digested where
  after : State
  status : Word
  words : List Word
  deriving DecidableEq, Repr

/-- `DIGEST b0 b1 ...` (R128): `LOADMSG`, `START`, `WAIT` with `gaps` before its polls, and `READHEX`
where the status is DONE. None when `WAIT` has not ended. -/
def digest (m : List Byte) (gaps : List (List Turn)) (s : State) : Option Digested :=
  match play (loadMsg m ++ [issue .start]) s with
  | .next t =>
    match wait gaps t with
    | some (u, x) =>
      some ⟨u, x, if x = 0x00000002#32 then answers readHex.length (u.withTurns readHex) else []⟩
    | none => none
  | .fault _ => none
  | .refused _ => none

end Sys2Proof.Machine
end

