-- ==== Sys2Proof/Machine/Reference.lean ====
section
/-! DEFINITION. The reference function of `00_scope.md` R16: SHA-1 of a byte sequence, without any
hardware state. R16 gives it for sequences of at most `2^29 - 1` bytes, and no digest is defined for a
longer one (U1). The Lean functions take every list, and on a longer one go on with the same formulas:
the model's choice, no rule's (DESIGN CHOICE, log 24). -/

namespace Sys2Proof.Machine.Reference

/-- `NBLK = floor((L + 72) / 64)`. -/
def blocks (m : List Byte) : Nat := (m.length + 72) / 64

/-- `pad(m)[i]`, for `i < 64 * NBLK` and a message of at most `2^29 - 1` bytes. On a longer message the
length field goes on as the exact 64-bit number, and past the stream's end the formula of its last byte
goes on: both are the model's choice (DESIGN CHOICE, log 24). -/
def pad (m : List Byte) (i : Nat) : Byte :=
  let len := m.length
  let p := 64 * blocks m
  if h : i < len then m[i]
  else if i = len then 0x80#8
  else if i < p - 8 then 0x00#8
  else BitVec.ofNat 8 ((8 * len) >>> (8 * (p - 1 - i)))

/-- `word(b, t)`. -/
def word (m : List Byte) (b t : Nat) : Word :=
  wordOfBytes (pad m (64 * b + 4 * t)) (pad m (64 * b + 4 * t + 1)) (pad m (64 * b + 4 * t + 2))
    (pad m (64 * b + 4 * t + 3))

/-- The first `n` words of the schedule whose first sixteen words are `blk`. -/
def schedWords (blk : Nat → Word) : Nat → List Word
  | 0 => []
  | n + 1 =>
    let w := schedWords blk n
    let x := if n < 16 then blk n
      else scheduleMix (w.getD (n - 3) 0#32) (w.getD (n - 8) 0#32) (w.getD (n - 14) 0#32)
        (w.getD (n - 16) 0#32)
    w ++ [x]

/-- `sched(b)`, the eighty words of the schedule of a block. -/
def sched (blk : Nat → Word) : List Word := schedWords blk 80

/-- The five working values `a` to `e`. -/
structure Work where
  a : Word
  b : Word
  c : Word
  d : Word
  e : Word
  deriving DecidableEq, Repr

/-- `round(j, w, (a,b,c,d,e))`, of phase `floor(j / 20)`. -/
def round (w : List Word) (x : Work) (j : Nat) : Work where
  a := roundSum (Fin.ofNat 4 (j / 20)) x.a x.b x.c x.d x.e (w.getD j 0#32)
  b := x.a
  c := rotl x.b 30
  d := x.c
  e := x.d

/-- Rounds 0 to `n - 1`. -/
def rounds (w : List Word) (x : Work) (n : Nat) : Work := (List.range n).foldl (round w) x

/-- `compress(h, w)`. -/
def compress (h : Work) (w : List Word) : Work :=
  let x := rounds w h 80
  ⟨h.a + x.a, h.b + x.b, h.c + x.c, h.d + x.d, h.e + x.e⟩

/-- `IV`. -/
def initial : Work := ⟨rget iv 0, rget iv 1, rget iv 2, rget iv 3, rget iv 4⟩

/-- The running state after the first `n` blocks of the message. -/
def afterBlocks (m : List Byte) (n : Nat) : Work :=
  (List.range n).foldl (fun h b => compress h (sched (word m b))) initial

/-- `SHA1W(m)`, for a message of at most `2^29 - 1` bytes; a longer one has no digest in the spec (U1),
and what stands here for it is the model's choice (log 24). -/
def sha1w (m : List Byte) : Work := afterBlocks m (blocks m)

/-- The five words in order. -/
def Work.words (x : Work) : List Word := [x.a, x.b, x.c, x.d, x.e]

/-- `hex8(x)`. -/
def hex8 (x : Word) : List Byte := (List.range 8).map (fun n => hexchar (nibble x n))

/-- `SHA1HEX(m)`, the forty characters, with the domain of `sha1w`. -/
def sha1hex (m : List Byte) : List Byte := (sha1w m).words.flatMap hex8

end Sys2Proof.Machine.Reference
end

