-- ==== Sys2Proof/Safety.lean ====
section
/-! DEFINITION. What a good state and an undisturbed run are, in the terms claims use: the sequencer
invariant (`10_state.md` R35, R36, R51), the message a computation reads, harmless host turns
(`70_reset_and_hazards.md` R248) and the number of micro-operations left (R246). -/

namespace Sys2Proof.Machine

/-! ### The invariant -/

/-- The pairs `(STG, J)` of R35. -/
abbrev Engine.SeqLegal (e : Engine) : Prop :=
  (e.STG = Stage.idle ∧ e.J.toNat = 0) ∨ (e.STG = Stage.seg ∧ e.J.toNat ≤ 15) ∨
  (e.STG = Stage.xpd ∧ e.J.toNat ≤ 79) ∨ (e.STG = Stage.lds ∧ e.J.toNat = 0) ∨
  (e.STG = Stage.rnd ∧ e.J.toNat ≤ 79) ∨ (e.STG = Stage.fold ∧ e.J.toNat = 0) ∨
  (e.STG = Stage.enc ∧ e.J.toNat ≤ 4) ∨ (e.STG = Stage.done ∧ e.J.toNat = 0) ∨
  (e.STG = Stage.fault ∧ e.J.toNat = 0)

/-- `ECODE != 0` exactly in FAULT, and only the three causes occur (R36). -/
abbrev Engine.CauseLegal (e : Engine) : Prop :=
  (e.ECODE ≠ 0#4 ↔ e.STG = Stage.fault) ∧ e.ECODE.toNat ≤ 3

/-- While BUSY the length fits the memory, the block count is the message's, and the block index is
in range (R35, R34). -/
abbrev Engine.RunLegal (e : Engine) : Prop :=
  e.isBusy = true →
    e.LEN.toNat ≤ e.M.size ∧ e.NBLK.toNat = (e.LEN.toNat + 72) / 64 ∧ e.BI.toNat < e.NBLK.toNat ∧
    (e.STG = Stage.enc → e.BI.toNat + 1 = e.NBLK.toNat)

/-- In DONE the block counters keep their last values (R35; for `LEN` in DONE see log 17). -/
abbrev Engine.DoneLegal (e : Engine) : Prop :=
  e.isDone = true →
    1 ≤ e.NBLK.toNat ∧ e.NBLK.toNat ≤ 2 ^ 23 + 1 ∧ e.BI.toNat + 1 = e.NBLK.toNat

/-- One of the sixteen codes of `44_digest_encoding.md` R191. -/
abbrev IsHexCode (b : Byte) : Prop :=
  (0x30 ≤ b.toNat ∧ b.toNat ≤ 0x39) ∨ (0x61 ≤ b.toNat ∧ b.toNat ≤ 0x66)

/-- The characters written so far, all forty in DONE, are hexadecimal digits (R193). -/
abbrev Engine.DigitsLegal (e : Engine) : Prop :=
  (e.STG = Stage.enc → ∀ c, c < 8 * e.J.toNat → IsHexCode (rget e.DIG c)) ∧
  (e.isDone = true → ∀ c, c < 40 → IsHexCode (rget e.DIG c))

/-- The invariant of the engine: every step keeps it. -/
abbrev Engine.Inv (e : Engine) : Prop :=
  e.SeqLegal ∧ e.CauseLegal ∧ e.RunLegal ∧ e.DoneLegal ∧ e.DigitsLegal ∧ e.M.wf

abbrev State.Inv (s : State) : Prop := s.engine.Inv

/-! ### The message -/

/-- The message `M[0 .. LEN-1]` (`10_state.md` R45). -/
def Engine.message (e : Engine) : List Byte := (List.range e.LEN.toNat).map e.M.byteAt

/-- The running state as the reference function's five words. -/
def Engine.hash (e : Engine) : Reference.Work :=
  ⟨rget e.H 0, rget e.H 1, rget e.H 2, rget e.H 3, rget e.H 4⟩

/-- The working registers as five words. -/
def Engine.work (e : Engine) : Reference.Work := ⟨e.A, e.B, e.C, e.D, e.E⟩

/-! ### Undisturbed runs -/

/-- The transactions that raise nothing and change no engine state in any stage: reads, `NOP`, and
writes of read-only or reserved registers (`70_reset_and_hazards.md` R248). -/
def isHarmless (i : Instr) : Bool :=
  match i with
  | .rd _ => true
  | .rdm _ => true
  | .wr r v =>
    match r with
    | .cmd => v == 0x00000000#32
    | .status => true
    | .len => false
    | .h _ => true
    | .digw _ => true
    | .reserved _ => true
  | .nop => true
  | .wrm _ _ => false
  | .start => false
  | .clr => false
  | .ldw _ => false
  | .cpw _ => false
  | .xw _ => false
  | .lds => false
  | .rnd0 _ => false
  | .rnd1 _ => false
  | .rnd2 _ => false
  | .rnd3 _ => false
  | .fold => false
  | .hexw _ => false

/-- An engine turn, or a host turn with a harmless transaction. -/
def Turn.harmless : Turn → Bool
  | .engine => true
  | .reset => false
  | .host w => match decodeT w with
    | .ok i => isHarmless i
    | .error _ => false

/-- The format T word of `START`, `WR CMD, 1` (`40_host_commands.md` R126). -/
def startWord : BitVec 64 := 0x4000000000000001#64

/-- The micro-operations a computation of a message of `n` bytes takes (R246). -/
def microOps (n : Nat) : Nat := 178 * ((n + 72) / 64) + 5

/-- The micro-operations still to run: those of the stage at hand and after it in this block (178 a
block), 178 for each later block, 5 to encode (`30_encoding.md` R98). -/
def Engine.stepsLeft (e : Engine) : Nat :=
  let later := 178 * (e.NBLK.toNat - 1 - e.BI.toNat) + 5
  if e.STG = Stage.seg then 178 - e.J.toNat + later
  else if e.STG = Stage.xpd then 162 - e.J.toNat + later
  else if e.STG = Stage.lds then 82 + later
  else if e.STG = Stage.rnd then 81 - e.J.toNat + later
  else if e.STG = Stage.fold then 1 + later
  else if e.STG = Stage.enc then 5 - e.J.toNat
  else 0

/-- The successor `next(S, BI, NBLK)` of the hardwired program (R98). -/
def Engine.successor (e : Engine) : BitVec 4 × Nat × Nat :=
  let j := e.J.toNat
  let bi := e.BI.toNat
  if e.STG = Stage.seg then if j < 15 then (Stage.seg, j + 1, bi) else (Stage.xpd, 0, bi)
  else if e.STG = Stage.xpd then if j < 79 then (Stage.xpd, j + 1, bi) else (Stage.lds, 0, bi)
  else if e.STG = Stage.lds then (Stage.rnd, 0, bi)
  else if e.STG = Stage.rnd then if j < 79 then (Stage.rnd, j + 1, bi) else (Stage.fold, 0, bi)
  else if e.STG = Stage.fold then
    if bi + 1 < e.NBLK.toNat then (Stage.seg, 0, bi + 1) else (Stage.enc, 0, bi)
  else if e.STG = Stage.enc then if j < 4 then (Stage.enc, j + 1, bi) else (Stage.done, 0, bi)
  else (e.STG, j, bi)

end Sys2Proof.Machine
end

