-- ==== Sys2Proof/Certificates/Slice0/Obligations.lean ====
section
/-! DEFINITION. The statements for the provers, from the numbered rules of `spec/`. A statement over all
states also covers those outside R35's set, which no run reaches: that a host or reset turn runs there as
in any other state is the model's choice (log 21), no rule's. -/

open Sys2Proof Sys2Proof.Machine

/-! ### Encoding (`30_encoding.md` R91 to R103) -/

/-- Words written out from the encodings of R91, R95 to R97 decode to the operations they stand for. -/
def Obligations.SampleWordsDecode : Prop :=
  decodeT 0x00000001DEADBEEF#64 = .ok (.rd .status) ∧
  decodeT 0x4000000200000003#64 = .ok (.wr .len 3#32) ∧
  decodeT 0x4000004000000001#64 = .ok (.wr (.reserved 64#29) 1#32) ∧
  decodeT 0x8000000500000000#64 = .ok (.rdm 5#29) ∧
  decodeT 0xC0000005000001FF#64 = .ok (.wrm 5#29 0xFF#8) ∧
  decodeC 0x00000001#32 = .ok .start ∧
  decodeC 0x00000002#32 = .ok .clr ∧
  decodeS 0x08F#11 = .ok (.ldw 15#7) ∧
  decodeS 0x110#11 = .ok (.xw 16#7) ∧
  decodeS 0x227#11 = .ok (.rnd1 39#7) ∧
  decodeS 0x228#11 = .ok (.rnd2 40#7) ∧
  decodeS 0x280#11 = .ok .fold ∧
  decodeS 0x304#11 = .ok (.hexw 4#7)

/-- Decoding the word of any well-formed operation gives it back, with every operand (R91 to R97). -/
def Obligations.DecodeEncodeRoundTrip : Prop :=
  ∀ i : Instr, i.wf = true → decode (encode i) = .ok i

/-- Decoding ignores no bit but `wdata` of a read and `wdata[31:8]` of `WRM` (R103): the word an
operation was decoded from is the operation's word but for those bits, and the operation is well
formed. Format T spells no transaction exactly when `z = 1`, format C exactly three commands. -/
def Obligations.DecodingIgnoresNoOtherBit : Prop :=
  (∀ (w : BitVec 64) (i : Instr), decodeT w = .ok i →
    i.wf = true ∧
    encode i = .t (w &&& (match i with
      | .rd _ => 0xFFFFFFFF00000000#64
      | .rdm _ => 0xFFFFFFFF00000000#64
      | .wrm _ _ => 0xFFFFFFFF000000FF#64
      | _ => 0xFFFFFFFFFFFFFFFF#64))) ∧
  (∀ w : BitVec 64, (decodeT w = .error .invalidTransaction ↔ w.getLsbD 61 = true) ∧
    (w.getLsbD 61 = false → ∃ i, decodeT w = .ok i)) ∧
  (∀ (w : BitVec 32) (i : Instr), decodeC w = .ok i → i.wf = true ∧ encode i = .c w) ∧
  (∀ w : BitVec 32, decodeC w = .error .illegalCommand ↔ (w ≠ 0#32 ∧ w ≠ 1#32 ∧ w ≠ 2#32)) ∧
  (∀ (w : BitVec 11) (i : Instr), decodeS w = .ok i → i.wf = true ∧ encode i = .s w) ∧
  (∀ w : BitVec 11, decodeS w = .error .idleWord ↔ (w = 0x000#11 ∨ w = 0x380#11 ∨ w = 0x780#11))

/-- The decoders and the match/mask rows of R95, R96 and R97 select the same words: a word decodes to
an operation of a mnemonic exactly when a row of that mnemonic covers it, and no two rows overlap. -/
def Obligations.OpcodeRowsAgreeWithDecoders : Prop :=
  (∀ (w : BitVec 64) (m : String),
    (∃ i, decodeT w = .ok i ∧ i.mnemonic = m) ↔ ∃ r ∈ rowsT, r.covers w = true ∧ r.mnemonic = m) ∧
  (∀ (w : BitVec 32) (m : String),
    (∃ i, decodeC w = .ok i ∧ i.mnemonic = m) ↔ ∃ r ∈ rowsC, r.covers w = true ∧ r.mnemonic = m) ∧
  (∀ (w : BitVec 11) (m : String),
    (∃ i, decodeS w = .ok i ∧ i.mnemonic = m) ↔ ∃ r ∈ rowsS, r.covers w = true ∧ r.mnemonic = m) ∧
  rowsT.Pairwise (fun r q => ∀ w, ¬ (r.covers w = true ∧ q.covers w = true)) ∧
  rowsC.Pairwise (fun r q => ∀ w, ¬ (r.covers w = true ∧ q.covers w = true)) ∧
  rowsS.Pairwise (fun r q => ∀ w, ¬ (r.covers w = true ∧ q.covers w = true))

/-! ### The step (`20_memory.md` R70, `10_state.md` R31) -/

/-- On the engine's turn, with a micro-operation in the sequencer word, the step is that
micro-operation, and only the turn is taken. -/
def Obligations.EngineTurnRunsMicroOperation : Prop :=
  ∀ (s : State) (i : Instr), s.turn = .engine →
    decodeS (controlWord s.engine.STG s.engine.J) = .ok i →
    step s = exec i { s with turns := s.turns.tail }

/-- On the host's turn, with a packing that decodes, the step is that transaction, and only the turn
is taken; a write of `CMD` with a defined word is the command of that word (R101). In a state outside
R35's set that the transaction runs at all is the model's choice (log 21). -/
def Obligations.HostTurnRunsTransaction : Prop :=
  ∀ (s : State) (w : BitVec 64) (i : Instr), s.turn = .host w → decodeT w = .ok i →
    step s = exec i { s with turns := s.turns.tail } ∧
    (∀ v c, i = .wr .cmd v → decodeC v = .ok c → step s = exec c { s with turns := s.turns.tail })

/-- A word of the opcode table put where the step fetches is run by the very next step, in the state
as it was but, for a control word, for the two sequencer registers that hold it. Both the placing and
the reading of the word are the model's: a transaction or command is put on the port, and a control word
into `STG` and `J` from outside, which no host can do (R90; log 4, DESIGN CHOICE); the word's format is
told by its width (log 18, DEDUCED). -/
def Obligations.FetchedWordRuns : Prop :=
  ∀ (s : State) (nbits w : Nat) (i : Instr), decodeTableWord nbits w = some i →
    step (s.withFetchWord nbits w) = exec i
      (if i.format = .s then
        { s with engine := { s.engine with
          STG := controlStage (BitVec.ofNat 11 w), J := controlIndex (BitVec.ofNat 11 w) } }
      else s)

/-- In IDLE, DONE and FAULT the engine has no step and all state is retained (R98, R218). That the order
may give the engine a turn there, and that this turn is answered by a next state in which only the turn
is gone, is the model's choice (log 2, DESIGN CHOICE). -/
def Obligations.QuiescentEngineKeepsState : Prop :=
  ∀ s : State, s.turn = .engine → s.engine.J = 0#7 →
    (s.engine.STG = 0#4 ∨ s.engine.STG = 7#4 ∨ s.engine.STG = 15#4) →
    step s = .next { s with turns := s.turns.tail }

/-- The two stops of the model (R99): a packing with `z = 1` is refused, and an engine turn at a
control word that is neither a micro-operation nor an idle word has no next state. -/
def Obligations.WordsThatSpellNothingStop : Prop :=
  (∀ (s : State) (w : BitVec 64), s.turn = .host w → w.getLsbD 61 = true →
    step s = .refused .invalidTransaction) ∧
  (∀ s : State, s.turn = .engine →
    (∀ i, decodeS (controlWord s.engine.STG s.engine.J) ≠ .ok i) →
    ¬ (s.engine.J = 0#7 ∧ (s.engine.STG = 0#4 ∨ s.engine.STG = 7#4 ∨ s.engine.STG = 15#4)) →
    step s = .fault .unreachableControlWord)

/-- The reset event, in any stage (R230): the control registers are 0, `STATUS` reads 0, `M` keeps
every byte. That the engine's next turn then passes is the model's choice (log 2), and so is that a reset
turn runs in a state outside R35's set (log 21). -/
def Obligations.ResetEventLeavesIdle : Prop :=
  ∀ s : State, s.turn = .reset →
    ∃ t, step s = .next t ∧
      t.engine.STG = 0#4 ∧ t.engine.J = 0#7 ∧ t.engine.BI = 0#24 ∧ t.engine.NBLK = 0#24 ∧
      t.engine.ECODE = 0#4 ∧ t.engine.LEN = 0#32 ∧
      (∀ a, t.engine.M.byteAt a = s.engine.M.byteAt a) ∧ t.engine.M = s.engine.M ∧
      t.turns = s.turns.tail ∧
      (∃ u, exec (.rd .status) t = .next u ∧ u.rdata = some 0x00000000#32) ∧
      step (t.withTurn .engine) = .next t

/-! ### Host transactions (`40_host_commands.md` R120 to R123) -/

/-- `RD n` for every 29-bit address: the value R120 gives, `any` outside DONE left free, and no state
written. -/
def Obligations.ReadRegisterReturns : Prop :=
  ∀ (s : State) (a : Addr),
    ∃ t x, exec (.rd (Reg.ofAddr a)) s = .next t ∧ t.rdata = some x ∧
      t.engine = s.engine ∧ t.turns = s.turns ∧
      (a.toNat = 0 → x = 0#32) ∧
      (a.toNat = 1 → x.toNat = 16 * s.engine.ECODE.toNat + (if s.engine.STG.toNat = 15 then 4 else 0)
        + (if s.engine.STG.toNat = 7 then 2 else 0)
        + (if 1 ≤ s.engine.STG.toNat ∧ s.engine.STG.toNat ≤ 6 then 1 else 0)) ∧
      (a.toNat = 2 → x = s.engine.LEN) ∧
      (∀ k, k < 5 → a.toNat = 4 + k → s.engine.STG.toNat = 7 → x = rget s.engine.H k) ∧
      (∀ k, k < 10 → a.toNat = 16 + k → s.engine.STG.toNat = 7 →
        x.toNat = (rget s.engine.DIG (4 * k)).toNat * 2 ^ 24
          + (rget s.engine.DIG (4 * k + 1)).toNat * 2 ^ 16
          + (rget s.engine.DIG (4 * k + 2)).toNat * 2 ^ 8
          + (rget s.engine.DIG (4 * k + 3)).toNat) ∧
      (a.toNat = 3 ∨ (9 ≤ a.toNat ∧ a.toNat ≤ 15) ∨ 26 ≤ a.toNat → x = 0#32)

/-- The only values a read of `STATUS` returns, in a state that meets the invariant, and that it has no
side effect (R40). -/
def Obligations.StatusHasSixValues : Prop :=
  ∀ s : State, s.Inv →
    ∃ x, exec (.rd .status) s = .next { s with rdata := some x } ∧
      (s.engine.STG = 0#4 ∧ x = 0x00#32 ∨
       (1 ≤ s.engine.STG.toNat ∧ s.engine.STG.toNat ≤ 6) ∧ x = 0x01#32 ∨
       s.engine.STG = 7#4 ∧ x = 0x02#32 ∨
       s.engine.STG = 15#4 ∧ s.engine.ECODE = 1#4 ∧ x = 0x14#32 ∨
       s.engine.STG = 15#4 ∧ s.engine.ECODE = 2#4 ∧ x = 0x24#32 ∨
       s.engine.STG = 15#4 ∧ s.engine.ECODE = 3#4 ∧ x = 0x34#32)

/-- `WR n, v` for every address but that of `CMD` (R121): `LEN` is stored, or BusyViolation is raised
with `LEN` kept, and every other address ignores the write in every stage. -/
def Obligations.WriteRegisterStoresLenOnly : Prop :=
  ∀ (s : State) (a : Addr) (v : Word), a.toNat ≠ 0 →
    exec (.wr (Reg.ofAddr a) v) s = .next { s with
      rdata := none
      engine :=
        if a.toNat = 2 then
          if 1 ≤ s.engine.STG.toNat ∧ s.engine.STG.toNat ≤ 6 then
            { s.engine with ECODE := 3#4, STG := 15#4, J := 0#7 }
          else { s.engine with LEN := v }
        else s.engine }

/-- A register number that names no register (R44): 3, 9 to 15, 26 to 63, and every address beyond: a
read returns 0 and a write is ignored, in every stage, with no fault. -/
def Obligations.ReservedRegistersReadZero : Prop :=
  ∀ (s : State) (a : Addr) (v : Word),
    (a.toNat = 3 ∨ (9 ≤ a.toNat ∧ a.toNat ≤ 15) ∨ 26 ≤ a.toNat) →
    exec (.rd (Reg.ofAddr a)) s = .next { s with rdata := some 0#32 } ∧
    exec (.wr (Reg.ofAddr a) v) s = .next { s with rdata := none }

/-- `RDM a` (R122, R75): the stored byte zero-extended, 0 for an address that does not exist, in every
stage, and no state written. -/
def Obligations.ReadMessageByteReturns : Prop :=
  ∀ (s : State) (a : Addr),
    exec (.rdm a) s = .next { s with
      rdata := some (if a.toNat < s.engine.M.size
        then BitVec.ofNat 32 (s.engine.M.byteAt a.toNat).toNat else 0#32) }

/-- `WRM a, b` (R123, R75): while BUSY, BusyViolation with `M` kept, whatever the address; otherwise
the byte at `a` becomes `b` if it exists, every other byte reads as before, and nothing else
changes. -/
def Obligations.WriteMessageByteStores : Prop :=
  ∀ (s : State) (a : Addr) (b : Byte), s.engine.M.wf →
    ∃ t, exec (.wrm a b) s = .next t ∧ t.turns = s.turns ∧ t.rdata = none ∧ t.draws = s.draws ∧
      (1 ≤ s.engine.STG.toNat ∧ s.engine.STG.toNat ≤ 6 →
        t.engine = { s.engine with ECODE := 3#4, STG := 15#4, J := 0#7 }) ∧
      (¬ (1 ≤ s.engine.STG.toNat ∧ s.engine.STG.toNat ≤ 6) →
        t.engine = { s.engine with M := t.engine.M } ∧ t.engine.M.size = s.engine.M.size ∧
        ∀ x, t.engine.M.byteAt x =
          if x = a.toNat ∧ a.toNat < s.engine.M.size then b else s.engine.M.byteAt x)

/-- An M-space address at or above `MSG_CAP` (R75): `RDM` returns 0, `WRM` is ignored, and while BUSY
still raises BusyViolation. -/
def Obligations.AbsentBytesReadZero : Prop :=
  ∀ (s : State) (a : Addr) (b : Byte), s.engine.M.size ≤ a.toNat →
    exec (.rdm a) s = .next { s with rdata := some 0#32 } ∧
    exec (.wrm a b) s = .next { s with
      rdata := none
      engine := if 1 ≤ s.engine.STG.toNat ∧ s.engine.STG.toNat ≤ 6 then
        { s.engine with ECODE := 3#4, STG := 15#4, J := 0#7 } else s.engine }

/-! ### Commands and faults (`40_host_commands.md` R124 to R127, `60_exceptions.md` R200 to R212) -/

/-- The whole of `command(v)` by stage (R124, R209): in FAULT only `CLR` acts; elsewhere an undefined
word is IllegalCommand even while BUSY, `NOP` does nothing, `START` and `CLR` while BUSY are
BusyViolation, and otherwise they are themselves. For the unused codes 8 to 14 of `STG` this is the text
of R124's last arms; that a host turn runs there at all is the model's choice (log 21). -/
def Obligations.CommandWordDispatch : Prop :=
  ∀ (s : State) (v : Word),
    let e := s.engine
    exec (.wr .cmd v) s = .next { s with
      rdata := none
      engine :=
        if e.STG.toNat = 15 then
          if v.toNat = 2 then { e with ECODE := 0#4, STG := 0#4, J := 0#7 } else e
        else if 3 ≤ v.toNat then { e with ECODE := 2#4, STG := 15#4, J := 0#7 }
        else if v.toNat = 0 then e
        else if 1 ≤ e.STG.toNat ∧ e.STG.toNat ≤ 6 then
          { e with ECODE := 3#4, STG := 15#4, J := 0#7 }
        else if v.toNat = 2 then { e with ECODE := 0#4, STG := 0#4, J := 0#7 }
        else if 2 ^ 29 ≤ e.LEN.toNat ∨ e.M.size < e.LEN.toNat then
          { e with ECODE := 1#4, STG := 15#4, J := 0#7 }
        else
          { e with
            H := #v[0x67452301#32, 0xEFCDAB89#32, 0x98BADCFE#32, 0x10325476#32, 0xC3D2E1F0#32]
            NBLK := BitVec.ofNat 24 ((e.LEN.toNat + 72) / 64)
            BI := 0#24
            STG := 1#4
            J := 0#7 } }

/-- `NOP` changes nothing in any stage, BUSY included (R125); like every write it returns no data. -/
def Obligations.NopChangesNothing : Prop :=
  ∀ s : State, exec .nop s = .next { s with rdata := none }

/-- `START` in IDLE or DONE with a length that fits is accepted (R126): `H` is the initial state,
`NBLK` is the block count, which fits its register, and everything else is kept. -/
def Obligations.StartAccepted : Prop :=
  ∀ s : State, (s.engine.STG = 0#4 ∨ s.engine.STG = 7#4) →
    s.engine.LEN.toNat < 2 ^ 29 → s.engine.LEN.toNat ≤ s.engine.M.size →
    ∃ n : BitVec 24, n.toNat = (s.engine.LEN.toNat + 72) / 64 ∧
      exec .start s = .next { s with
        rdata := none
        engine := { s.engine with
          H := #v[0x67452301#32, 0xEFCDAB89#32, 0x98BADCFE#32, 0x10325476#32, 0xC3D2E1F0#32]
          NBLK := n
          BI := 0#24
          STG := 1#4
          J := 0#7 } }

/-- `START` in IDLE or DONE with a length of `2^29` bytes or more, or beyond the memory, raises
InputTooLarge and writes nothing else (R201). -/
def Obligations.StartTooLargeFaults : Prop :=
  ∀ s : State, (s.engine.STG = 0#4 ∨ s.engine.STG = 7#4) →
    (2 ^ 29 ≤ s.engine.LEN.toNat ∨ s.engine.M.size < s.engine.LEN.toNat) →
    exec .start s = .next { s with
      rdata := none
      engine := { s.engine with ECODE := 1#4, STG := 15#4, J := 0#7 } }

/-- `CLR` in IDLE, DONE or FAULT leaves IDLE with no cause and keeps the rest (R127, R211); in IDLE of
a state that meets the invariant it changes nothing. -/
def Obligations.ClrReturnsToIdle : Prop :=
  (∀ s : State, (s.engine.STG = 0#4 ∨ s.engine.STG = 7#4 ∨ s.engine.STG = 15#4) →
    exec .clr s = .next { s with
      rdata := none
      engine := { s.engine with ECODE := 0#4, STG := 0#4, J := 0#7 } }) ∧
  (∀ s : State, s.Inv → s.engine.STG = 0#4 → exec .clr s = .next { s with rdata := none })

/-- While BUSY, `START`, `CLR`, `WR LEN` and `WRM` of any address raise BusyViolation, and are not
performed; a read, `NOP` and a write to a read-only or reserved register raise nothing (R203). -/
def Obligations.BusyWritesFault : Prop :=
  ∀ (s : State) (i : Instr), 1 ≤ s.engine.STG.toNat → s.engine.STG.toNat ≤ 6 →
    ((i = .start ∨ i = .clr ∨ (∃ v, i = .wr .len v) ∨ (∃ a b, i = .wrm a b)) →
      exec i s = .next { s with
        rdata := none
        engine := { s.engine with ECODE := 3#4, STG := 15#4, J := 0#7 } }) ∧
    ((i = .nop ∨ (∃ r, i = .rd r) ∨ (∃ a, i = .rdm a) ∨
        (∃ r v, i = .wr r v ∧ r ≠ .cmd ∧ r ≠ .len)) →
      ∃ t, exec i s = .next t ∧ t.engine = s.engine)

/-- An undefined command word raises IllegalCommand in every stage but FAULT, and is ignored in FAULT
(R202). For the unused codes 8 to 14 of `STG`, which R202 does not name, the clause is R124's text, and
that a host turn runs there is the model's choice (log 21). -/
def Obligations.IllegalCommandFaults : Prop :=
  ∀ (s : State) (v : Word), v ≠ 0#32 → v ≠ 1#32 → v ≠ 2#32 →
    (s.engine.STG ≠ 15#4 → exec (.wr .cmd v) s = .next { s with
      rdata := none
      engine := { s.engine with ECODE := 2#4, STG := 15#4, J := 0#7 } }) ∧
    (s.engine.STG = 15#4 → exec (.wr .cmd v) s = .next { s with rdata := none })

/-- Whatever operation takes the engine into FAULT writes `ECODE`, `STG` and `J` and nothing else of
the engine, with one of the three causes (R204). -/
def Obligations.FaultEntryWritesThreeRegisters : Prop :=
  ∀ (i : Instr) (s t : State), exec i s = .next t →
    s.engine.STG ≠ 15#4 → t.engine.STG = 15#4 →
    ∃ k : BitVec 4, (k = 1#4 ∨ k = 2#4 ∨ k = 3#4) ∧
      t.engine = { s.engine with ECODE := k, STG := 15#4, J := 0#7 }

/-- No micro-operation raises a fault: it completes, outside stage FAULT, with `ECODE` kept (R206). -/
def Obligations.MicroOperationsNeverFault : Prop :=
  ∀ (i : Instr) (s : State), i.format = .s →
    ∃ t, exec i s = .next t ∧ t.engine.STG ≠ 15#4 ∧ t.engine.ECODE = s.engine.ECODE

/-- In FAULT no transaction or command but `CLR` changes the stage or the cause; `WR LEN` and `WRM`
are performed (R212). -/
def Obligations.FirstCauseSticks : Prop :=
  ∀ (s : State), s.engine.STG = 15#4 →
    (∀ i : Instr, i.format ≠ .s → i ≠ .clr → i ≠ .wr .cmd 2#32 →
      ∃ t, exec i s = .next t ∧ t.engine.STG = 15#4 ∧ t.engine.ECODE = s.engine.ECODE) ∧
    (∀ v, ∃ t, exec (.wr .len v) s = .next t ∧ t.engine.LEN = v) ∧
    (∀ (a : Addr) b, s.engine.M.wf → a.toNat < s.engine.M.size →
      ∃ t, exec (.wrm a b) s = .next t ∧ t.engine.M.byteAt a.toNat = b)

/-! ### The padder and segmentor (`41_padding_segmentation.md`) -/

/-- For every legal length the block count register holds `ceil((L + 9) / 64)`; the padded length is
`L + 1 + z + 8` with the least `z` that reaches 56 modulo 64, and the marker and the length field do
not overlap (R141, R30). -/
def Obligations.BlockCountOfLength : Prop :=
  ∀ len : Word, len.toNat < 2 ^ 29 →
    let n := (blockCount len).toNat
    let z := 64 * n - len.toNat - 9
    n = (len.toNat + 9 + 63) / 64 ∧ 1 ≤ n ∧ n ≤ 2 ^ 23 + 1 ∧
      64 * n = len.toNat + 1 + z + 8 ∧ z < 64 ∧ (len.toNat + 1 + z) % 64 = 56 ∧
      len.toNat + 1 ≤ 64 * n - 8

/-- `PB(i)` (R142) while the engine runs: the message, the marker, zeros, and the length field, whose
upper four bytes are 0 and whose lower four are the bit length, most significant first. -/
def Obligations.PaddedStreamBytes : Prop :=
  ∀ (e : Engine) (i : Nat), e.LEN.toNat < 2 ^ 29 → e.NBLK.toNat = (e.LEN.toNat + 72) / 64 →
    let p := 64 * e.NBLK.toNat
    (i < e.LEN.toNat → e.paddedByte i = e.M.byteAt i) ∧
    (i = e.LEN.toNat → e.paddedByte i = 0x80#8) ∧
    (e.LEN.toNat < i → i < p - 4 → e.paddedByte i = 0x00#8) ∧
    e.paddedByte (p - 4) = (BitVec.ofNat 32 (8 * e.LEN.toNat)).extractLsb' 24 8 ∧
    e.paddedByte (p - 3) = (BitVec.ofNat 32 (8 * e.LEN.toNat)).extractLsb' 16 8 ∧
    e.paddedByte (p - 2) = (BitVec.ofNat 32 (8 * e.LEN.toNat)).extractLsb' 8 8 ∧
    e.paddedByte (p - 1) = (BitVec.ofNat 32 (8 * e.LEN.toNat)).extractLsb' 0 8

/-- The padded stream of a running engine is the padding of its message by the reference function
(R142, R148, R16). For a `LEN` of `2^29` or more, which no running engine has and for which R16 gives no
padding, both sides are the model's choice (logs 9, 24). -/
def Obligations.PaddedStreamIsReferencePadding : Prop :=
  ∀ (e : Engine) (i : Nat), e.NBLK.toNat = (e.LEN.toNat + 72) / 64 → i < 64 * e.NBLK.toNat →
    e.paddedByte i = Reference.pad e.message i

/-- `LDW` with `J = t` (R147, R146): `BLK[t]` becomes the big-endian word of the four stream bytes at
`64 * BI + 4 * t`, the sequencer moves on, and everything else is kept. -/
def Obligations.LdwLoadsPaddedWord : Prop :=
  ∀ (s : State) (t : Index), t.toNat ≤ 15 →
    ∃ blk : Vector Word 16,
      exec (.ldw t) s = .next { s with engine := { s.engine with
        BLK := blk
        STG := if t.toNat = 15 then 2#4 else 1#4
        J := if t.toNat = 15 then 0#7 else BitVec.ofNat 7 (t.toNat + 1) } } ∧
      (let p := 64 * s.engine.BI.toNat + 4 * t.toNat
       (rget blk t.toNat).toNat =
        (s.engine.paddedByte p).toNat * 2 ^ 24 + (s.engine.paddedByte (p + 1)).toNat * 2 ^ 16
          + (s.engine.paddedByte (p + 2)).toNat * 2 ^ 8 + (s.engine.paddedByte (p + 3)).toNat) ∧
      ∀ k, k < 16 → k ≠ t.toNat → rget blk k = rget s.engine.BLK k

/-! ### The schedule expander (`42_schedule_expansion.md`) -/

/-- `CPW` with `J = j` (R163, R161): `W[j]` becomes `BLK[j]`; everything else but `J` is kept. -/
def Obligations.CpwCopiesBlockWord : Prop :=
  ∀ (s : State) (j : Index), j.toNat ≤ 15 →
    ∃ w : Vector Word 80,
      exec (.cpw j) s = .next { s with engine := { s.engine with
        W := w, STG := 2#4, J := BitVec.ofNat 7 (j.toNat + 1) } } ∧
      rget w j.toNat = rget s.engine.BLK j.toNat ∧
      ∀ k, k < 80 → k ≠ j.toNat → rget w k = rget s.engine.W k

/-- `XW` with `J = j` (R164, R162): `W[j]` becomes the exclusive or of the four earlier words rotated
left by one place; everything else but the sequencer is kept. -/
def Obligations.XwDerivesScheduleWord : Prop :=
  ∀ (s : State) (j : Index), 16 ≤ j.toNat → j.toNat ≤ 79 →
    ∃ w : Vector Word 80,
      exec (.xw j) s = .next { s with engine := { s.engine with
        W := w
        STG := if j.toNat = 79 then 3#4 else 2#4
        J := if j.toNat = 79 then 0#7 else BitVec.ofNat 7 (j.toNat + 1) } } ∧
      rget w j.toNat = (rget s.engine.W (j.toNat - 3) ^^^ rget s.engine.W (j.toNat - 8)
        ^^^ rget s.engine.W (j.toNat - 14) ^^^ rget s.engine.W (j.toNat - 16)).rotateLeft 1 ∧
      ∀ k, k < 80 → k ≠ j.toNat → rget w k = rget s.engine.W k

/-! ### The compression round (`43_compression_round.md`) -/

/-- `LDS` (R172): the working registers become the running state; everything else but the sequencer is
kept. -/
def Obligations.LdsLoadsRunningState : Prop :=
  ∀ s : State, exec .lds s = .next { s with engine := { s.engine with
    A := s.engine.H[0], B := s.engine.H[1], C := s.engine.H[2], D := s.engine.H[3]
    E := s.engine.H[4], STG := 4#4, J := 0#7 } }

/-- The four round operations (R174 to R178, R171): each phase's function and constant, the rotations
by 5 and 30, the simultaneous shift of the working registers, and the successor; everything else is
kept. -/
def Obligations.RoundsOfFourPhases : Prop :=
  ∀ (s : State) (j : Index),
    let e := s.engine
    let shifted := fun (f k : Word) => { s with engine := { e with
      A := e.A.rotateLeft 5 + f + e.E + k + rget e.W j.toNat
      B := e.A
      C := e.B.rotateLeft 30
      D := e.C
      E := e.D
      STG := if j.toNat = 79 then 5#4 else 4#4
      J := if j.toNat = 79 then 0#7 else BitVec.ofNat 7 (j.toNat + 1) } }
    (j.toNat ≤ 19 →
      exec (.rnd0 j) s = .next (shifted ((e.B &&& e.C) ||| (~~~e.B &&& e.D)) 0x5A827999#32)) ∧
    (20 ≤ j.toNat ∧ j.toNat ≤ 39 →
      exec (.rnd1 j) s = .next (shifted (e.B ^^^ e.C ^^^ e.D) 0x6ED9EBA1#32)) ∧
    (40 ≤ j.toNat ∧ j.toNat ≤ 59 →
      exec (.rnd2 j) s =
        .next (shifted ((e.B &&& e.C) ||| (e.B &&& e.D) ||| (e.C &&& e.D)) 0x8F1BBCDC#32)) ∧
    (60 ≤ j.toNat ∧ j.toNat ≤ 79 →
      exec (.rnd3 j) s = .next (shifted (e.B ^^^ e.C ^^^ e.D) 0xCA62C1D6#32))

/-- The round functions by bit (R173): choose takes `c` where `b` is 1 and `d` where it is 0, parity
is 1 where an odd number of the three is 1, majority is 1 where at least two are. -/
def Obligations.RoundFunctionsByBit : Prop :=
  ∀ (b c d : Word) (i : Nat), i < 32 →
    (phaseFn 0 b c d).getLsbD i = (if b.getLsbD i then c.getLsbD i else d.getLsbD i) ∧
    (phaseFn 1 b c d).getLsbD i =
      decide (((b.getLsbD i).toNat + (c.getLsbD i).toNat + (d.getLsbD i).toNat) % 2 = 1) ∧
    (phaseFn 2 b c d).getLsbD i =
      decide (2 ≤ (b.getLsbD i).toNat + (c.getLsbD i).toNat + (d.getLsbD i).toNat) ∧
    (phaseFn 3 b c d).getLsbD i =
      decide (((b.getLsbD i).toNat + (c.getLsbD i).toNat + (d.getLsbD i).toNat) % 2 = 1)

/-- `FOLD` (R180): each running state word becomes its sum with its working register modulo `2^32`;
the next block starts if there is one, else the encoding; everything else is kept. -/
def Obligations.FoldAddsAndBranches : Prop :=
  ∀ s : State,
    let e := s.engine
    ∃ h : Vector Word 5,
      h[0].toNat = (e.H[0].toNat + e.A.toNat) % 2 ^ 32 ∧
      h[1].toNat = (e.H[1].toNat + e.B.toNat) % 2 ^ 32 ∧
      h[2].toNat = (e.H[2].toNat + e.C.toNat) % 2 ^ 32 ∧
      h[3].toNat = (e.H[3].toNat + e.D.toNat) % 2 ^ 32 ∧
      h[4].toNat = (e.H[4].toNat + e.E.toNat) % 2 ^ 32 ∧
      (e.BI.toNat + 1 < e.NBLK.toNat →
        exec .fold s = .next { s with engine := { e with
          H := h, BI := BitVec.ofNat 24 (e.BI.toNat + 1), STG := 1#4, J := 0#7 } }) ∧
      (¬ e.BI.toNat + 1 < e.NBLK.toNat →
        exec .fold s = .next { s with engine := { e with H := h, STG := 6#4, J := 0#7 } })

/-! ### The digest serializer (`44_digest_encoding.md`) -/

/-- `HEXW` with `J = i` (R192, R191): characters `8i` to `8i + 7` of `DIG` become the lowercase
hexadecimal digits of `H[i]`, most significant first, the others and everything but the sequencer
are kept. -/
def Obligations.HexwWritesEightCharacters : Prop :=
  ∀ (s : State) (i : Index), i.toNat ≤ 4 →
    ∃ d : Vector Byte 40,
      exec (.hexw i) s = .next { s with engine := { s.engine with
        DIG := d
        STG := if i.toNat = 4 then 7#4 else 6#4
        J := if i.toNat = 4 then 0#7 else BitVec.ofNat 7 (i.toNat + 1) } } ∧
      (∀ n, n < 8 →
        let x := (rget s.engine.H i.toNat).toNat / 16 ^ (7 - n) % 16
        (rget d (8 * i.toNat + n)).toNat = if x ≤ 9 then 0x30 + x else 0x57 + x) ∧
      ∀ c, c < 40 → ¬ (8 * i.toNat ≤ c ∧ c < 8 * i.toNat + 8) → rget d c = rget s.engine.DIG c

/-! ### The whole machine -/

/-- The state at power-on with any legal `MSG_CAP` meets the invariant, and so does `State.reset`,
whose control registers are 0 (R49, R35). The zero in the datapath registers is the model's own
choice (log 8) and is not stated. -/
def Obligations.ResetMeetsInvariant : Prop :=
  State.reset.Inv ∧ (∀ cap life, cap ≤ 2 ^ 29 - 1 → (State.powerOn cap life).Inv) ∧
  (let e := State.reset.engine
   e.STG = 0#4 ∧ e.J = 0#7 ∧ e.BI = 0#24 ∧ e.NBLK = 0#24 ∧ e.ECODE = 0#4 ∧ e.LEN = 0#32)

/-- Every step keeps the invariant: the sequencer stays in R35's set, `ECODE` is 0 exactly outside
FAULT, a running engine's length and counters fit, the characters written are hexadecimal digits,
and `M` keeps its canonical form (R35, R36, R193). -/
def Obligations.StepKeepsInvariant : Prop :=
  ∀ s t : State, s.Inv → step s = .next t → t.Inv

/-- R35 also says `LEN <= MSG_CAP` and `NBLK = floor((LEN + 72) / 64)` in DONE and that "every rule
preserves it"; R121 stores any `LEN` in DONE. This statement is R35's reading, and it fails: the
model follows R121 (log 17). -/
def Obligations.DoneLengthClauseIsKept : Prop :=
  ∀ s t : State, s.Inv →
    (s.engine.isDone = true → s.engine.LEN.toNat ≤ s.engine.M.size ∧
      s.engine.NBLK.toNat = (s.engine.LEN.toNat + 72) / 64) →
    step s = .next t →
    (t.engine.isDone = true → t.engine.LEN.toNat ≤ t.engine.M.size ∧
      t.engine.NBLK.toNat = (t.engine.LEN.toNat + 72) / 64)

/-- The hardwired program (R98): in a BUSY state that meets the invariant, the engine's turn moves the
sequencer to the successor of the control word and to nothing else. -/
def Obligations.SequencerFollowsProgram : Prop :=
  ∀ s : State, s.Inv → s.engine.isBusy = true → s.turn = .engine →
    ∃ t, step s = .next t ∧
      (t.engine.STG, t.engine.J.toNat, t.engine.BI.toNat) = s.engine.successor ∧
      t.engine.NBLK = s.engine.NBLK ∧ t.engine.LEN = s.engine.LEN ∧ t.engine.M = s.engine.M

/-- Progress (R247, R246): in a BUSY state that meets the invariant the engine's turn always has a
next state, with exactly one micro-operation fewer left; none is left exactly when it is not BUSY. -/
def Obligations.EngineTurnMakesProgress : Prop :=
  ∀ s : State, s.Inv →
    (s.engine.isBusy = true → s.turn = .engine →
      ∃ t, step s = .next t ∧ t.engine.stepsLeft + 1 = s.engine.stepsLeft) ∧
    (s.engine.stepsLeft = 0 ↔ s.engine.isBusy = false)

/-- A read, a `NOP`, and a write of a read-only or reserved register change no engine state in any
stage (R70, R248). In a state outside R35's set that the turn runs at all is the model's choice
(log 21). -/
def Obligations.HarmlessTurnsDoNotDisturb : Prop :=
  ∀ (s : State) (w : BitVec 64), s.turn = .host w → (Turn.host w).harmless = true →
    ∃ t, step s = .next t ∧ t.engine = s.engine ∧ t.turns = s.turns.tail

/-- The input of a computation changes by the host's hand only (R29, R63, R76): a step that changes
`M` is a `WRM` outside BUSY to an address that exists, and one that changes `LEN` is a `WR LEN` outside
BUSY or the reset event. -/
def Obligations.OnlyTheHostChangesTheInput : Prop :=
  ∀ s t : State, step s = .next t →
    (t.engine.M ≠ s.engine.M → s.engine.isBusy = false ∧
      ∃ w a b, s.turn = .host w ∧ decodeT w = .ok (.wrm a b) ∧ a.toNat < s.engine.M.size) ∧
    (t.engine.LEN ≠ s.engine.LEN → s.turn = .reset ∨ (s.engine.isBusy = false ∧
      ∃ w v, s.turn = .host w ∧ decodeT w = .ok (.wr .len v) ∧ t.engine.LEN = v))

/-- In DONE the digest stays readable until `START`, `CLR`, an illegal command or reset (R193, R244):
any other turn keeps the stage, `H` and `DIG`. That the engine's turn in DONE passes is the model's
choice (log 2). -/
def Obligations.DigestStaysInDone : Prop :=
  ∀ s t : State, s.Inv → s.engine.STG = 7#4 → step s = .next t → s.turn ≠ .reset →
    (∀ w v, s.turn = .host w → decodeT w = .ok (.wr .cmd v) → v = 0#32) →
    t.engine.STG = 7#4 ∧ t.engine.H = s.engine.H ∧ t.engine.DIG = s.engine.DIG ∧
      t.engine.ECODE = s.engine.ECODE

/-- Sixteen engine turns from word 0 load block `BI` of the padded message (R145, R147, R148). That every
turn is the engine's when none is listed is the model's choice (log 2). -/
def Obligations.SegStageLoadsBlock : Prop :=
  ∀ s : State, s.Inv → s.engine.STG = 1#4 → s.engine.J = 0#7 → s.turns = [] →
    ∃ t, Sys2Proof.core.run 16 s = .next t ∧ t.engine.STG = 2#4 ∧ t.engine.J = 0#7 ∧
      (∀ k, k < 16 →
        rget t.engine.BLK k = Reference.word s.engine.message s.engine.BI.toNat k) ∧
      t.engine = { s.engine with BLK := t.engine.BLK, STG := 2#4, J := 0#7 }

/-- The eighty engine turns of stage XPD leave in `W` the schedule of the block in `BLK` (R165). That
every turn is the engine's when none is listed is the model's choice (log 2). -/
def Obligations.XpdStageBuildsSchedule : Prop :=
  ∀ s : State, s.engine.STG = 2#4 → s.engine.J = 0#7 → s.turns = [] →
    ∃ t, Sys2Proof.core.run 80 s = .next t ∧
      t.engine.W.toList = Reference.sched (rget s.engine.BLK) ∧
      t.engine = { s.engine with W := t.engine.W, STG := 3#4, J := 0#7 }

/-- The eighty engine turns of stage RND are the eighty rounds of the reference function on the
working registers (R179). That every turn is the engine's when none is listed is the model's choice
(log 2). -/
def Obligations.RndStageIsEightyRounds : Prop :=
  ∀ s : State, s.engine.STG = 4#4 → s.engine.J = 0#7 → s.turns = [] →
    ∃ t, Sys2Proof.core.run 80 s = .next t ∧
      t.engine.work = Reference.rounds s.engine.W.toList s.engine.work 80 ∧
      t.engine = { s.engine with
        A := t.engine.A, B := t.engine.B, C := t.engine.C, D := t.engine.D, E := t.engine.E
        STG := 5#4, J := 0#7 }

/-- The end-to-end property (R244, R128): from IDLE or DONE, `START` with a length that fits, then any
interleaving of harmless host turns with exactly `178 * NBLK + 5` engine turns, ends in DONE with
`H` the SHA-1 of the message and `DIG` its forty characters, `LEN` and `M` unchanged and no cause. The
message's bytes that were never written are the free values of log 6: the property holds for every
value of them. -/
def Obligations.DigestIsSha1OfMessage : Prop :=
  ∀ (s : State) (ts : List Turn), s.Inv → (s.engine.STG = 0#4 ∨ s.engine.STG = 7#4) →
    s.engine.LEN.toNat ≤ s.engine.M.size → (∀ t ∈ ts, t.harmless = true) →
    ts.count .engine = microOps s.engine.LEN.toNat →
    ∃ u, Sys2Proof.core.run (ts.length + 1) (s.withTurns (.host startWord :: ts)) = .next u ∧
      u.turns = [] ∧ u.engine.STG = 7#4 ∧ u.engine.J = 0#7 ∧ u.engine.ECODE = 0#4 ∧
      u.engine.LEN = s.engine.LEN ∧ u.engine.M = s.engine.M ∧
      u.engine.hash = Reference.sha1w s.engine.message ∧
      u.engine.DIG.toList = Reference.sha1hex s.engine.message

/-- `WAIT` (R102, R128): whenever it ends, the value it returns is the one read last, has `BUSY = 0`, and
the engine is not BUSY; and it ends at the first poll before which the engine is not BUSY, with `STATUS`
as it is there and no engine state changed by the poll. From a BUSY state that meets the invariant, with harmless host turns and engine
turns before the polls, it has not ended while fewer engine turns came than the computation has
micro-operations left, and once that many came it has ended with `STATUS = 0x02` and the input as it was
(the fairness of R247). That the turns before each poll are given as a list of lists is the model's
choice (log 20). -/
def Obligations.WaitEndsWhenNotBusy : Prop :=
  (∀ (s u : State) (gaps : List (List Turn)) (x : Word), wait gaps s = some (u, x) →
    u.rdata = some x ∧ x.getLsbD 0 = false ∧
      ¬ (1 ≤ u.engine.STG.toNat ∧ u.engine.STG.toNat ≤ 6)) ∧
  (∀ (s t : State) (g : List Turn) (gaps : List (List Turn)), play g s = .next t →
    ¬ (1 ≤ t.engine.STG.toNat ∧ t.engine.STG.toNat ≤ 6) →
    ∃ u, wait (g :: gaps) s = some (u, t.engine.status) ∧ u.engine = t.engine) ∧
  (∀ (s : State) (gaps : List (List Turn)), s.Inv → s.engine.isBusy = true →
    (∀ g ∈ gaps, ∀ t ∈ g, t.harmless = true) →
    (gaps.flatten.count .engine < s.engine.stepsLeft → wait gaps s = none) ∧
    (s.engine.stepsLeft ≤ gaps.flatten.count .engine →
      ∃ u, wait gaps s = some (u, 0x00000002#32) ∧ u.engine.STG = 7#4 ∧
        u.engine.LEN = s.engine.LEN ∧ u.engine.M = s.engine.M))

/-- The `DIGEST` operation (R128, R102): from IDLE or DONE, for every message that fits, with harmless
host turns and engine turns before the polls of `WAIT`, it has not ended while fewer than
`178 * NBLK + 5` engine turns came; once that many came it has ended with status `0x02`, the message in
`M`, and the forty characters of its SHA-1 read by `READHEX`, and `READBIN` there returns the five words.
For every message that does not fit it ends at the first poll with status `0x14` and reads nothing; how
a message that the operands of `WRM` and `WR LEN` cannot spell is loaded is the model's choice (log 22). -/
def Obligations.DigestOperationReturnsSha1 : Prop :=
  ∀ (s : State) (m : List Byte) (gaps : List (List Turn)), s.Inv →
    (s.engine.STG = 0#4 ∨ s.engine.STG = 7#4) → (∀ g ∈ gaps, ∀ t ∈ g, t.harmless = true) →
    (m.length ≤ s.engine.M.size → gaps.flatten.count .engine < microOps m.length →
      digest m gaps s = none) ∧
    (m.length ≤ s.engine.M.size → microOps m.length ≤ gaps.flatten.count .engine →
      ∃ d, digest m gaps s = some d ∧ d.status = 0x00000002#32 ∧
        d.after.engine.STG = 7#4 ∧ d.after.engine.message = m ∧
        answers 5 (d.after.withTurns readBin) = (Reference.sha1w m).words ∧
        d.words = (List.range 10).map (fun k =>
          let c := fun n => (Reference.sha1hex m).getD (4 * k + n) 0#8
          wordOfBytes (c 0) (c 1) (c 2) (c 3))) ∧
    (s.engine.M.size < m.length → gaps ≠ [] →
      ∃ d, digest m gaps s = some d ∧ d.status = 0x00000014#32 ∧ d.words = [] ∧
        d.after.engine.STG = 15#4 ∧ d.after.engine.ECODE = 1#4)

/-- The engine is BUSY until its last micro-operation (R246, R98): after `START` with a length that
fits and fewer than `178 * NBLK + 5` engine turns among harmless host turns, `STATUS` reads BUSY. -/
def Obligations.BusyUntilLastMicroOperation : Prop :=
  ∀ (s : State) (ts : List Turn), s.Inv → (s.engine.STG = 0#4 ∨ s.engine.STG = 7#4) →
    s.engine.LEN.toNat ≤ s.engine.M.size → (∀ t ∈ ts, t.harmless = true) →
    ts.count .engine < microOps s.engine.LEN.toNat →
    ∃ u v, Sys2Proof.core.run (ts.length + 1) (s.withTurns (.host startWord :: ts)) = .next u ∧
      exec (.rd .status) u = .next v ∧ v.rdata = some 0x00000001#32

/-- Determinism and independence (R245, R21): two engines with the same length and the same message
bytes below it, whatever else they hold and whichever harmless host turns come between, finish with
the same digest. -/
def Obligations.DigestDependsOnMessageOnly : Prop :=
  ∀ (s s' : State) (ts ts' : List Turn), s.Inv → s'.Inv →
    (s.engine.STG = 0#4 ∨ s.engine.STG = 7#4) → (s'.engine.STG = 0#4 ∨ s'.engine.STG = 7#4) →
    s.engine.LEN = s'.engine.LEN →
    s.engine.LEN.toNat ≤ s.engine.M.size → s'.engine.LEN.toNat ≤ s'.engine.M.size →
    (∀ a, a < s.engine.LEN.toNat → s.engine.M.byteAt a = s'.engine.M.byteAt a) →
    (∀ t ∈ ts, t.harmless = true) → (∀ t ∈ ts', t.harmless = true) →
    ts.count .engine = microOps s.engine.LEN.toNat →
    ts'.count .engine = microOps s.engine.LEN.toNat →
    ∃ u u', Sys2Proof.core.run (ts.length + 1) (s.withTurns (.host startWord :: ts)) = .next u ∧
      Sys2Proof.core.run (ts'.length + 1) (s'.withTurns (.host startWord :: ts')) = .next u' ∧
      u.engine.STG = 7#4 ∧ u'.engine.STG = 7#4 ∧
      u.engine.H = u'.engine.H ∧ u.engine.DIG = u'.engine.DIG

/-- Instances share nothing (R216): a step of one is a step of its own state, and unless its turn is
reset it leaves every other instance as it was. All leave reset in IDLE together: at a reset turn every
instance has its control registers 0 and its message memory unchanged, and power-on leaves every
instance so. That a reset turn in one instance's list is the reset of all is read from R216's sentence
(log 15, DEDUCED). -/
def Obligations.PlatformMembersAreIndependent : Prop :=
  (∀ (p q : Platform) (k : Fin p.members.length), p.stepMember k = .next q →
    q.members.length = p.members.length ∧
    (∃ t, step p.members[k] = .next t ∧ q.members[k.val]? = some t) ∧
    (p.members[k].turn ≠ .reset → ∀ n, n ≠ k.val → q.members[n]? = p.members[n]?) ∧
    (p.members[k].turn = .reset → ∀ n s, p.members[n]? = some s →
      ∃ t, q.members[n]? = some t ∧
        t.engine.STG = 0#4 ∧ t.engine.J = 0#7 ∧ t.engine.BI = 0#24 ∧ t.engine.NBLK = 0#24 ∧
        t.engine.ECODE = 0#4 ∧ t.engine.LEN = 0#32 ∧ t.engine.M = s.engine.M ∧
        (n ≠ k.val → t.turns = s.turns))) ∧
  (∀ (p : Platform) (k : Fin p.members.length) (t : State), step p.members[k] = .next t →
    ∃ q, p.stepMember k = .next q) ∧
  (∀ n cap, ∀ s ∈ (Platform.powerOn n cap).members,
    s.engine.STG = 0#4 ∧ s.engine.J = 0#7 ∧ s.engine.ECODE = 0#4 ∧ s.engine.M.size = cap)
end

