-- ==== Sys2Proof/Laws/State.lean ====
section
/-! SUPPORT. One lemma per field per update of the engine and of the state. -/

namespace Sys2Proof.Machine

/-! ### Stage codes as numerals, the form every goal about `STG` is brought to -/

@[simp] theorem stage_idle : Stage.idle = 0#4 := rfl

@[simp] theorem stage_seg : Stage.seg = 1#4 := rfl

@[simp] theorem stage_xpd : Stage.xpd = 2#4 := rfl

@[simp] theorem stage_lds : Stage.lds = 3#4 := rfl

@[simp] theorem stage_rnd : Stage.rnd = 4#4 := rfl

@[simp] theorem stage_fold : Stage.fold = 5#4 := rfl

@[simp] theorem stage_enc : Stage.enc = 6#4 := rfl

@[simp] theorem stage_done : Stage.done = 7#4 := rfl

@[simp] theorem stage_fault : Stage.fault = 15#4 := rfl

/-! ### `Engine.seq` -/

@[simp] theorem Engine.seq_H (e : Engine) (s : BitVec 4) (j : Index) : (e.seq s j).H = e.H := rfl
@[simp] theorem Engine.seq_A (e : Engine) (s : BitVec 4) (j : Index) : (e.seq s j).A = e.A := rfl
@[simp] theorem Engine.seq_B (e : Engine) (s : BitVec 4) (j : Index) : (e.seq s j).B = e.B := rfl
@[simp] theorem Engine.seq_C (e : Engine) (s : BitVec 4) (j : Index) : (e.seq s j).C = e.C := rfl
@[simp] theorem Engine.seq_D (e : Engine) (s : BitVec 4) (j : Index) : (e.seq s j).D = e.D := rfl
@[simp] theorem Engine.seq_E (e : Engine) (s : BitVec 4) (j : Index) : (e.seq s j).E = e.E := rfl
@[simp] theorem Engine.seq_BLK (e : Engine) (s : BitVec 4) (j : Index) : (e.seq s j).BLK = e.BLK := rfl
@[simp] theorem Engine.seq_W (e : Engine) (s : BitVec 4) (j : Index) : (e.seq s j).W = e.W := rfl
@[simp] theorem Engine.seq_DIG (e : Engine) (s : BitVec 4) (j : Index) : (e.seq s j).DIG = e.DIG := rfl
@[simp] theorem Engine.seq_LEN (e : Engine) (s : BitVec 4) (j : Index) : (e.seq s j).LEN = e.LEN := rfl
@[simp] theorem Engine.seq_NBLK (e : Engine) (s : BitVec 4) (j : Index) : (e.seq s j).NBLK = e.NBLK := rfl
@[simp] theorem Engine.seq_BI (e : Engine) (s : BitVec 4) (j : Index) : (e.seq s j).BI = e.BI := rfl
@[simp] theorem Engine.seq_ECODE (e : Engine) (s : BitVec 4) (j : Index) : (e.seq s j).ECODE = e.ECODE := rfl
@[simp] theorem Engine.seq_M (e : Engine) (s : BitVec 4) (j : Index) : (e.seq s j).M = e.M := rfl
@[simp] theorem Engine.seq_STG (e : Engine) (s : BitVec 4) (j : Index) : (e.seq s j).STG = s := rfl
@[simp] theorem Engine.seq_J (e : Engine) (s : BitVec 4) (j : Index) : (e.seq s j).J = j := rfl

/-! ### `Engine.raise` and `Engine.clear` -/

@[simp] theorem Engine.raise_H (e : Engine) (k : Cause) : (e.raise k).H = e.H := rfl
@[simp] theorem Engine.raise_A (e : Engine) (k : Cause) : (e.raise k).A = e.A := rfl
@[simp] theorem Engine.raise_B (e : Engine) (k : Cause) : (e.raise k).B = e.B := rfl
@[simp] theorem Engine.raise_C (e : Engine) (k : Cause) : (e.raise k).C = e.C := rfl
@[simp] theorem Engine.raise_D (e : Engine) (k : Cause) : (e.raise k).D = e.D := rfl
@[simp] theorem Engine.raise_E (e : Engine) (k : Cause) : (e.raise k).E = e.E := rfl
@[simp] theorem Engine.raise_BLK (e : Engine) (k : Cause) : (e.raise k).BLK = e.BLK := rfl
@[simp] theorem Engine.raise_W (e : Engine) (k : Cause) : (e.raise k).W = e.W := rfl
@[simp] theorem Engine.raise_DIG (e : Engine) (k : Cause) : (e.raise k).DIG = e.DIG := rfl
@[simp] theorem Engine.raise_LEN (e : Engine) (k : Cause) : (e.raise k).LEN = e.LEN := rfl
@[simp] theorem Engine.raise_NBLK (e : Engine) (k : Cause) : (e.raise k).NBLK = e.NBLK := rfl
@[simp] theorem Engine.raise_BI (e : Engine) (k : Cause) : (e.raise k).BI = e.BI := rfl
@[simp] theorem Engine.raise_M (e : Engine) (k : Cause) : (e.raise k).M = e.M := rfl
@[simp] theorem Engine.raise_STG (e : Engine) (k : Cause) : (e.raise k).STG = Stage.fault := rfl
@[simp] theorem Engine.raise_J (e : Engine) (k : Cause) : (e.raise k).J = 0#7 := rfl
@[simp] theorem Engine.raise_ECODE (e : Engine) (k : Cause) : (e.raise k).ECODE = k.code := rfl

@[simp] theorem Engine.clear_H (e : Engine) : e.clear.H = e.H := rfl
@[simp] theorem Engine.clear_A (e : Engine) : e.clear.A = e.A := rfl
@[simp] theorem Engine.clear_B (e : Engine) : e.clear.B = e.B := rfl
@[simp] theorem Engine.clear_C (e : Engine) : e.clear.C = e.C := rfl
@[simp] theorem Engine.clear_D (e : Engine) : e.clear.D = e.D := rfl
@[simp] theorem Engine.clear_E (e : Engine) : e.clear.E = e.E := rfl
@[simp] theorem Engine.clear_BLK (e : Engine) : e.clear.BLK = e.BLK := rfl
@[simp] theorem Engine.clear_W (e : Engine) : e.clear.W = e.W := rfl
@[simp] theorem Engine.clear_DIG (e : Engine) : e.clear.DIG = e.DIG := rfl
@[simp] theorem Engine.clear_LEN (e : Engine) : e.clear.LEN = e.LEN := rfl
@[simp] theorem Engine.clear_NBLK (e : Engine) : e.clear.NBLK = e.NBLK := rfl
@[simp] theorem Engine.clear_BI (e : Engine) : e.clear.BI = e.BI := rfl
@[simp] theorem Engine.clear_M (e : Engine) : e.clear.M = e.M := rfl
@[simp] theorem Engine.clear_STG (e : Engine) : e.clear.STG = Stage.idle := rfl
@[simp] theorem Engine.clear_J (e : Engine) : e.clear.J = 0#7 := rfl
@[simp] theorem Engine.clear_ECODE (e : Engine) : e.clear.ECODE = 0#4 := rfl

/-! ### `Engine.advance`: `seq` at the next control word -/

@[simp] theorem Engine.advance_H (e : Engine) (g n : BitVec 4) (j l : Index) :
    (e.advance g j l n).H = e.H := by
  unfold Engine.advance; split <;> rfl
@[simp] theorem Engine.advance_A (e : Engine) (g n : BitVec 4) (j l : Index) :
    (e.advance g j l n).A = e.A := by
  unfold Engine.advance; split <;> rfl
@[simp] theorem Engine.advance_B (e : Engine) (g n : BitVec 4) (j l : Index) :
    (e.advance g j l n).B = e.B := by
  unfold Engine.advance; split <;> rfl
@[simp] theorem Engine.advance_C (e : Engine) (g n : BitVec 4) (j l : Index) :
    (e.advance g j l n).C = e.C := by
  unfold Engine.advance; split <;> rfl
@[simp] theorem Engine.advance_D (e : Engine) (g n : BitVec 4) (j l : Index) :
    (e.advance g j l n).D = e.D := by
  unfold Engine.advance; split <;> rfl
@[simp] theorem Engine.advance_E (e : Engine) (g n : BitVec 4) (j l : Index) :
    (e.advance g j l n).E = e.E := by
  unfold Engine.advance; split <;> rfl
@[simp] theorem Engine.advance_BLK (e : Engine) (g n : BitVec 4) (j l : Index) :
    (e.advance g j l n).BLK = e.BLK := by
  unfold Engine.advance; split <;> rfl
@[simp] theorem Engine.advance_W (e : Engine) (g n : BitVec 4) (j l : Index) :
    (e.advance g j l n).W = e.W := by
  unfold Engine.advance; split <;> rfl
@[simp] theorem Engine.advance_DIG (e : Engine) (g n : BitVec 4) (j l : Index) :
    (e.advance g j l n).DIG = e.DIG := by
  unfold Engine.advance; split <;> rfl
@[simp] theorem Engine.advance_LEN (e : Engine) (g n : BitVec 4) (j l : Index) :
    (e.advance g j l n).LEN = e.LEN := by
  unfold Engine.advance; split <;> rfl
@[simp] theorem Engine.advance_NBLK (e : Engine) (g n : BitVec 4) (j l : Index) :
    (e.advance g j l n).NBLK = e.NBLK := by
  unfold Engine.advance; split <;> rfl
@[simp] theorem Engine.advance_BI (e : Engine) (g n : BitVec 4) (j l : Index) :
    (e.advance g j l n).BI = e.BI := by
  unfold Engine.advance; split <;> rfl
@[simp] theorem Engine.advance_ECODE (e : Engine) (g n : BitVec 4) (j l : Index) :
    (e.advance g j l n).ECODE = e.ECODE := by
  unfold Engine.advance; split <;> rfl
@[simp] theorem Engine.advance_M (e : Engine) (g n : BitVec 4) (j l : Index) :
    (e.advance g j l n).M = e.M := by
  unfold Engine.advance; split <;> rfl
@[simp] theorem Engine.advance_STG (e : Engine) (g n : BitVec 4) (j l : Index) :
    (e.advance g j l n).STG = if j = l then n else g := by
  unfold Engine.advance; split <;> rfl
@[simp] theorem Engine.advance_J (e : Engine) (g n : BitVec 4) (j l : Index) :
    (e.advance g j l n).J = if j = l then 0#7 else j + 1#7 := by
  unfold Engine.advance; split <;> rfl

/-! ### State updates -/

@[simp] theorem State.hostWrite_engine (s : State) (f : Engine → Engine) : (s.hostWrite f).engine = f s.engine := rfl
@[simp] theorem State.hostWrite_rdata (s : State) (f : Engine → Engine) : (s.hostWrite f).rdata = none := rfl
@[simp] theorem State.hostWrite_turns (s : State) (f : Engine → Engine) : (s.hostWrite f).turns = s.turns := rfl
@[simp] theorem State.hostWrite_draws (s : State) (f : Engine → Engine) : (s.hostWrite f).draws = s.draws := rfl

@[simp] theorem State.microOp_engine (s : State) (f : Engine → Engine) : (s.microOp f).engine = f s.engine := rfl
@[simp] theorem State.microOp_rdata (s : State) (f : Engine → Engine) : (s.microOp f).rdata = s.rdata := rfl
@[simp] theorem State.microOp_turns (s : State) (f : Engine → Engine) : (s.microOp f).turns = s.turns := rfl
@[simp] theorem State.microOp_draws (s : State) (f : Engine → Engine) : (s.microOp f).draws = s.draws := rfl

@[simp] theorem State.taken_engine (s : State) : (s.taken).engine = s.engine := rfl
@[simp] theorem State.taken_rdata (s : State) : (s.taken).rdata = s.rdata := rfl
@[simp] theorem State.taken_turns (s : State) : (s.taken).turns = s.turns.tail := rfl
@[simp] theorem State.taken_draws (s : State) : (s.taken).draws = s.draws := rfl

@[simp] theorem State.withTurn_engine (s : State) (t : Turn) : (s.withTurn t).engine = s.engine := rfl
@[simp] theorem State.withTurn_rdata (s : State) (t : Turn) : (s.withTurn t).rdata = s.rdata := rfl
@[simp] theorem State.withTurn_turns (s : State) (t : Turn) : (s.withTurn t).turns = t :: s.turns := rfl
@[simp] theorem State.withTurn_draws (s : State) (t : Turn) : (s.withTurn t).draws = s.draws := rfl

@[simp] theorem State.withTurns_engine (s : State) (ts : List Turn) : (s.withTurns ts).engine = s.engine := rfl
@[simp] theorem State.withTurns_rdata (s : State) (ts : List Turn) : (s.withTurns ts).rdata = s.rdata := rfl
@[simp] theorem State.withTurns_turns (s : State) (ts : List Turn) : (s.withTurns ts).turns = ts := rfl
@[simp] theorem State.withTurns_draws (s : State) (ts : List Turn) : (s.withTurns ts).draws = s.draws := rfl

@[simp] theorem State.resetEvent_engine (s : State) : (s.resetEvent).engine = s.engine.reset := rfl
@[simp] theorem State.resetEvent_rdata (s : State) : (s.resetEvent).rdata = none := rfl
@[simp] theorem State.resetEvent_turns (s : State) : (s.resetEvent).turns = s.turns := rfl
@[simp] theorem State.resetEvent_draws (s : State) : (s.resetEvent).draws = s.draws := rfl

@[simp] theorem State.answer_some_engine (s : State) (x : Word) : (s.answer (some x)).engine = s.engine := rfl
@[simp] theorem State.answer_some_rdata (s : State) (x : Word) : (s.answer (some x)).rdata = some x := rfl
@[simp] theorem State.answer_some_turns (s : State) (x : Word) : (s.answer (some x)).turns = s.turns := rfl
@[simp] theorem State.answer_some_draws (s : State) (x : Word) : (s.answer (some x)).draws = s.draws := rfl

@[simp] theorem State.answer_none_engine (s : State) : (s.answer none).engine = s.engine := rfl
@[simp] theorem State.answer_none_rdata (s : State) : (s.answer none).rdata = some (Config.anyWord s.engine.M.life s.draws) := rfl
@[simp] theorem State.answer_none_turns (s : State) : (s.answer none).turns = s.turns := rfl
@[simp] theorem State.answer_none_draws (s : State) : (s.answer none).draws = s.draws + 1 := rfl

@[simp] theorem State.answer_engine (s : State) (v : Option Word) : (s.answer v).engine = s.engine := by
  cases v <;> rfl

@[simp] theorem State.answer_turns (s : State) (v : Option Word) : (s.answer v).turns = s.turns := by
  cases v <;> rfl

/-- A read always returns a word. -/
theorem State.answer_rdata_isSome (s : State) (v : Option Word) : (s.answer v).rdata.isSome := by
  cases v <;> rfl

/-- A micro-operation answers exactly the engine's new registers. -/
theorem State.microOp_eq (s : State) (f : Engine → Engine) :
    s.microOp f = { s with engine := f s.engine } := rfl

/-! ### Reset -/

@[simp] theorem Engine.reset_LEN (e : Engine) : e.reset.LEN = 0#32 := rfl
@[simp] theorem Engine.reset_NBLK (e : Engine) : e.reset.NBLK = 0#24 := rfl
@[simp] theorem Engine.reset_BI (e : Engine) : e.reset.BI = 0#24 := rfl
@[simp] theorem Engine.reset_STG (e : Engine) : e.reset.STG = 0#4 := rfl
@[simp] theorem Engine.reset_J (e : Engine) : e.reset.J = 0#7 := rfl
@[simp] theorem Engine.reset_ECODE (e : Engine) : e.reset.ECODE = 0#4 := rfl
@[simp] theorem Engine.reset_M (e : Engine) : e.reset.M = e.M := rfl

end Sys2Proof.Machine
end

