-- ==== Sys2Proof/Laws/Operands.lean ====
section
/-! SUPPORT. Reading and writing register files, the character codes, and the flags. -/

namespace Sys2Proof.Machine

theorem rget_rset {w n : Nat} (v : Vector (BitVec w) n) (i j : Nat) (x : BitVec w) :
    rget (rset v i x) j = if i = j ∧ i < n then x else rget v j := by
  unfold rget rset
  by_cases h : j < n <;> by_cases hij : i = j <;> simp_all

@[simp] theorem rget_rset_self {w n : Nat} (v : Vector (BitVec w) n) (i : Nat) (x : BitVec w)
    (h : i < n) : rget (rset v i x) i = x := by
  simp [rget_rset, h]

@[simp] theorem rget_rset_ne {w n : Nat} (v : Vector (BitVec w) n) (i j : Nat) (x : BitVec w)
    (h : i ≠ j) : rget (rset v i x) j = rget v j := by
  simp [rget_rset, h]

/-- Two register files with the same elements are the same. -/
theorem rget_ext {w n : Nat} {u v : Vector (BitVec w) n} (h : ∀ i, i < n → rget u i = rget v i) :
    u = v := by
  apply Vector.ext
  intro i hi
  simpa [rget, hi] using h i hi

/-- A register file as a list is the list of its elements. -/
theorem toList_eq_map_rget {w n : Nat} (v : Vector (BitVec w) n) :
    v.toList = (List.range n).map (rget v) := by
  apply List.ext_getElem
  · simp
  · intro i h₁ h₂
    have hi : i < n := by simpa using h₁
    simp [rget, hi]

/-- Every character code is one of the sixteen of R191. -/
theorem hexchar_isHexCode (n : BitVec 4) : IsHexCode (hexchar n) := by
  revert n; decide

theorem writeDigits_rget (d : Vector Byte 40) (i : Nat) (x : Word) (c : Nat) (hi : i < 5) :
    rget (writeDigits d i x) c =
      if 8 * i ≤ c ∧ c < 8 * i + 8 then hexchar (nibble x (c - 8 * i)) else rget d c := by
  simp only [writeDigits, List.range_succ, List.range_zero, List.foldl_append, List.foldl_cons,
    List.foldl_nil, List.nil_append, rget_rset]
  by_cases h : 8 * i ≤ c ∧ c < 8 * i + 8
  · obtain ⟨k, rfl⟩ : ∃ k, c = 8 * i + k := ⟨c - 8 * i, by omega⟩
    have hk : k < 8 := by omega
    have hlt : ∀ m, m < 8 → 8 * i + m < 40 := fun m hm => by omega
    rw [if_pos h]
    interval_cases k <;> simp [hlt]
    omega
  · rw [if_neg h]
    repeat rw [if_neg (by omega)]

theorem Engine.isBusy_iff (e : Engine) :
    e.isBusy = true ↔ 1 ≤ e.STG.toNat ∧ e.STG.toNat ≤ 6 := by
  simp [Engine.isBusy]

theorem Engine.isDone_iff (e : Engine) : e.isDone = true ↔ e.STG = Stage.done := by
  simp [Engine.isDone]

theorem Engine.isFault_iff (e : Engine) : e.isFault = true ↔ e.STG = Stage.fault := by
  simp [Engine.isFault]

/-- A busy engine stands in one of the six stages 1 to 6. -/
theorem Engine.busy_stage {e : Engine} (h : e.isBusy = true) :
    e.STG = Stage.seg ∨ e.STG = Stage.xpd ∨ e.STG = Stage.lds ∨ e.STG = Stage.rnd ∨
      e.STG = Stage.fold ∨ e.STG = Stage.enc := by
  rw [Engine.isBusy_iff] at h
  obtain ⟨h₁, h₂⟩ := h
  revert h₁ h₂
  generalize e.STG = g
  revert g
  decide

/-! ### Words -/

/-- `rotl` is the rotation of the word, for the amounts R11 defines. -/
theorem rotl_eq_rotateLeft (x : Word) {n : Nat} (h₀ : 0 < n) (h : n < 32) :
    rotl x n = x.rotateLeft n := by
  rw [rotl, if_pos ⟨h₀, h⟩, BitVec.rotateLeft_def, Nat.mod_eq_of_lt h]

/-- The big-endian word of four bytes as a number (`41_padding_segmentation.md` R146). -/
theorem toNat_wordOfBytes (a b c d : Byte) :
    (wordOfBytes a b c d).toNat =
      a.toNat * 2 ^ 24 + b.toNat * 2 ^ 16 + c.toNat * 2 ^ 8 + d.toNat := by
  simp only [wordOfBytes, BitVec.toNat_cast, BitVec.toNat_append]
  have := a.isLt; have := b.isLt; have := c.isLt; have := d.isLt
  rw [← Nat.shiftLeft_add_eq_or_of_lt (by omega), ← Nat.shiftLeft_add_eq_or_of_lt (by omega),
    ← Nat.shiftLeft_add_eq_or_of_lt (by omega)]
  simp only [Nat.shiftLeft_eq]
  omega

/-- The `STATUS` word as a number (`10_state.md` R40). -/
theorem Engine.toNat_status (e : Engine) :
    e.status.toNat = 16 * e.ECODE.toNat + 4 * e.isFault.toNat + 2 * e.isDone.toNat
      + e.isBusy.toNat := by
  unfold Engine.status flagAt
  generalize e.isFault = p
  generalize e.isDone = q
  generalize e.isBusy = r
  generalize e.ECODE = c
  revert c
  cases p <;> cases q <;> cases r <;> decide

/-! ### The sequencer -/

/-- An index is a number below 128. -/
theorem index_eq_ofNat_iff (j : Index) {n : Nat} (h : n < 128) :
    j = BitVec.ofNat 7 n ↔ j.toNat = n := by
  constructor
  · rintro rfl; simp only [BitVec.toNat_ofNat]; omega
  · intro hj; apply BitVec.eq_of_toNat_eq; simp only [BitVec.toNat_ofNat]; omega

/-- Everything `advance` can do (`30_encoding.md` R98). -/
theorem Engine.advance_spec (e : Engine) (stage next : BitVec 4) (j : Index) {last : Nat}
    (h : last < 128) :
    e.advance stage j (BitVec.ofNat 7 last) next = { e with
      STG := if j.toNat = last then next else stage
      J := if j.toNat = last then 0#7 else BitVec.ofNat 7 (j.toNat + 1) } := by
  have hs : j + 1#7 = BitVec.ofNat 7 (j.toNat + 1) := by
    apply BitVec.eq_of_toNat_eq; simp
  unfold Engine.advance Engine.seq
  simp only [index_eq_ofNat_iff j h, hs]
  split <;> rfl

end Sys2Proof.Machine
end

