-- ==== Sys2Proof/Laws/Memory.lean ====
section
/-! SUPPORT. Message memory: what a write changes, and that it keeps the canonical form. -/

namespace Sys2Proof.Machine

theorem readCells_writeCells (a x : Nat) (b : Byte) (cs : List Host.Cell)
    (h : cs.Pairwise (fun u v => u.1 < v.1)) :
    readCells x (writeCells a b cs) = if x = a then some b else readCells x cs := by
  induction cs with
  | nil => simp [writeCells, readCells, eq_comm]
  | cons c cs ih =>
    have hc := List.pairwise_cons.mp h
    by_cases h₁ : a < c.1
    · simp [writeCells, readCells, h₁, eq_comm]
    · by_cases h₂ : a = c.1
      · subst h₂
        by_cases hx : x = c.1 <;> simp [writeCells, readCells, hx, eq_comm]
      · simp only [writeCells, h₁, h₂, if_false, readCells, ih hc.2]
        by_cases hx : x = a
        · subst hx; simp [Ne.symm h₂]
        · simp [hx]

theorem mem_writeCells {a : Nat} {b : Byte} {cs : List Host.Cell} {c : Host.Cell}
    (h : c ∈ writeCells a b cs) : c = (a, b) ∨ c ∈ cs := by
  induction cs with
  | nil => simpa [writeCells] using h
  | cons d ds ih =>
    unfold writeCells at h
    split at h
    · simpa using h
    · split at h
      · rcases List.mem_cons.mp h with h | h
        · exact .inl h
        · exact .inr (List.mem_cons_of_mem _ h)
      · rcases List.mem_cons.mp h with h | h
        · exact .inr (by simp [h])
        · rcases ih h with h | h
          · exact .inl h
          · exact .inr (List.mem_cons_of_mem _ h)

theorem writeCells_rising (a : Nat) (b : Byte) (cs : List Host.Cell)
    (h : cs.Pairwise (fun u v => u.1 < v.1)) :
    (writeCells a b cs).Pairwise (fun u v => u.1 < v.1) := by
  induction cs with
  | nil => simp [writeCells]
  | cons c cs ih =>
    have hc := List.pairwise_cons.mp h
    unfold writeCells
    split
    · rename_i hlt
      refine List.pairwise_cons.mpr ⟨?_, h⟩
      intro d hd
      rcases List.mem_cons.mp hd with rfl | hd
      · exact hlt
      · exact lt_trans hlt (hc.1 d hd)
    · split
      · rename_i heq
        exact List.pairwise_cons.mpr ⟨fun d hd => heq ▸ hc.1 d hd, hc.2⟩
      · refine List.pairwise_cons.mpr ⟨?_, ih hc.2⟩
        intro d hd
        rcases mem_writeCells hd with rfl | hd
        · simp only; omega
        · exact hc.1 d hd

@[simp] theorem Memory.write_size (m : Memory) (a : Nat) (b : Byte) : (m.write a b).size = m.size := by
  unfold Memory.write; split <;> rfl

@[simp] theorem Memory.write_life (m : Memory) (a : Nat) (b : Byte) : (m.write a b).life = m.life := by
  unfold Memory.write; split <;> rfl

/-- Every memory operation keeps the canonical form. -/
theorem Memory.write_wf {m : Memory} (h : m.wf) (a : Nat) (b : Byte) : (m.write a b).wf := by
  obtain ⟨h₁, h₂, h₃⟩ := h
  unfold Memory.write
  split
  · rename_i ha
    refine ⟨writeCells_rising a b _ h₁, ?_, h₃⟩
    intro c hc
    rcases mem_writeCells hc with rfl | hc
    · exact ha
    · exact h₂ c hc
  · exact ⟨h₁, h₂, h₃⟩

/-- Read after write: the byte written at its address, every other byte as before. -/
theorem Memory.byteAt_write {m : Memory} (h : m.wf) (a x : Nat) (b : Byte) :
    (m.write a b).byteAt x = if x = a ∧ a < m.size then b else m.byteAt x := by
  unfold Memory.write
  split
  · rename_i ha
    by_cases hx : x = a
    · subst hx; simp [Memory.byteAt, readCells_writeCells _ _ _ _ h.1, ha]
    · simp [Memory.byteAt, Memory.unlisted, readCells_writeCells _ _ _ _ h.1, hx]
  · rename_i ha
    simp [ha]

/-- An empty memory is in canonical form. -/
theorem Memory.empty_wf {cap life : Nat} (h : cap ≤ Config.msgCapMax) :
    ({ size := cap, life := life, cells := [] } : Memory).wf :=
  ⟨List.Pairwise.nil, fun _ hc => absurd hc (by simp), h⟩

end Sys2Proof.Machine
end

