-- ==== Sys2Proof/Laws/Decode.lean ====
section
/-! SUPPORT. Register numbers and registers, control words and their fields, packings and records. -/

namespace Sys2Proof

theorem Reg.ofAddr_addr {r : Reg} (h : r.wf = true) : Reg.ofAddr r.addr = r := by
  cases r with
  | cmd => rfl
  | status => rfl
  | len => rfl
  | h i => revert i; decide
  | digw i => revert i; decide
  | reserved a =>
    simp only [Reg.wf, Reg.isReservedAddr, Bool.or_eq_true, beq_iff_eq, Bool.and_eq_true,
      decide_eq_true_eq] at h
    show Reg.ofAddr a = _
    unfold Reg.ofAddr
    rw [if_neg (by omega), if_neg (by omega), if_neg (by omega), dif_neg (by omega),
      dif_neg (by omega)]

theorem Reg.addr_ofAddr (a : Addr) : (Reg.ofAddr a).addr = a := by
  unfold Reg.ofAddr
  split
  · apply BitVec.eq_of_toNat_eq; simp [Reg.addr, *]
  · split
    · apply BitVec.eq_of_toNat_eq; simp [Reg.addr, *]
    · split
      · apply BitVec.eq_of_toNat_eq; simp [Reg.addr, *]
      · split
        · apply BitVec.eq_of_toNat_eq; simp [Reg.addr]; omega
        · split
          · apply BitVec.eq_of_toNat_eq; simp [Reg.addr]; omega
          · rfl

theorem Reg.ofAddr_wf (a : Addr) : (Reg.ofAddr a).wf = true := by
  unfold Reg.ofAddr
  repeat' split
  all_goals first | rfl | skip
  simp only [Reg.wf, Reg.isReservedAddr, Bool.or_eq_true, beq_iff_eq, Bool.and_eq_true,
    decide_eq_true_eq]
  omega

@[simp] theorem controlStage_controlWord (g : BitVec 4) (j : Index) :
    controlStage (controlWord g j) = g := by
  apply BitVec.eq_of_toNat_eq
  simp only [controlStage, controlWord, BitVec.extractLsb'_toNat, BitVec.toNat_cast,
    BitVec.toNat_append]
  rw [← Nat.shiftLeft_add_eq_or_of_lt j.isLt, Nat.shiftRight_eq_div_pow, Nat.shiftLeft_eq]
  have := j.isLt; have := g.isLt
  omega

@[simp] theorem controlIndex_controlWord (g : BitVec 4) (j : Index) :
    controlIndex (controlWord g j) = j := by
  apply BitVec.eq_of_toNat_eq
  simp only [controlIndex, controlWord, BitVec.extractLsb'_toNat, BitVec.toNat_cast,
    BitVec.toNat_append, Nat.shiftRight_zero]
  rw [← Nat.shiftLeft_add_eq_or_of_lt j.isLt, Nat.shiftLeft_eq]
  have := j.isLt
  omega

/-- A control word is its two fields (`30_encoding.md` R93). -/
theorem controlWord_fields (w : BitVec 11) : controlWord (controlStage w) (controlIndex w) = w := by
  apply BitVec.eq_of_toNat_eq
  simp only [controlStage, controlIndex, controlWord, BitVec.extractLsb'_toNat, BitVec.toNat_cast,
    BitVec.toNat_append, Nat.shiftRight_zero]
  rw [← Nat.shiftLeft_add_eq_or_of_lt (by omega), Nat.shiftRight_eq_div_pow, Nat.shiftLeft_eq]
  have := w.isLt
  omega

/-- Decoding a control word reads its two fields. -/
@[simp] theorem decodeS_controlWord (g : BitVec 4) (j : Index) :
    decodeS (controlWord g j) = decodeSeq g j := by
  simp [decodeS]

/-! `decodeSeq` stage by stage (`30_encoding.md` R97, R99). -/

theorem decodeSeq_seg (j : Index) : decodeSeq Stage.seg j =
    if j.toNat ≤ 15 then .ok (.ldw j) else .error .unreachableWord := rfl

theorem decodeSeq_xpd (j : Index) : decodeSeq Stage.xpd j =
    if j.toNat ≤ 15 then .ok (.cpw j)
    else if j.toNat ≤ 79 then .ok (.xw j) else .error .unreachableWord := rfl

theorem decodeSeq_lds (j : Index) : decodeSeq Stage.lds j =
    if j.toNat = 0 then .ok .lds else .error .unreachableWord := rfl

theorem decodeSeq_rnd (j : Index) : decodeSeq Stage.rnd j =
    if j.toNat ≤ 19 then .ok (.rnd0 j)
    else if j.toNat ≤ 39 then .ok (.rnd1 j)
    else if j.toNat ≤ 59 then .ok (.rnd2 j)
    else if j.toNat ≤ 79 then .ok (.rnd3 j) else .error .unreachableWord := rfl

theorem decodeSeq_fold (j : Index) : decodeSeq Stage.fold j =
    if j.toNat = 0 then .ok .fold else .error .unreachableWord := rfl

theorem decodeSeq_enc (j : Index) : decodeSeq Stage.enc j =
    if j.toNat ≤ 4 then .ok (.hexw j) else .error .unreachableWord := rfl

theorem decodeSeq_quiescent {g : BitVec 4} (h : g = Stage.idle ∨ g = Stage.done ∨ g = Stage.fault)
    (j : Index) : decodeSeq g j =
      if j.toNat = 0 then .error .idleWord else .error .unreachableWord := by
  rcases h with rfl | rfl | rfl <;> rfl

/-- The bits of a canonical packing (`30_encoding.md` R91). -/
theorem packT_getLsbD (x : Transaction) (i : Nat) :
    (packT x).getLsbD i =
      if i < 32 then x.wdata.getLsbD i
      else if i < 61 then x.addr.getLsbD (i - 32)
      else if i = 62 then x.we
      else if i = 63 then x.space
      else false := by
  simp only [packT, BitVec.getLsbD_cast, BitVec.getLsbD_append, BitVec.getLsbD_ofBool]
  by_cases h₁ : i < 32
  · simp [h₁]
  · by_cases h₂ : i < 61
    · simp [h₁, h₂, show i - 32 < 29 by omega]
    · by_cases h₃ : i = 61
      · subst h₃; simp
      · by_cases h₄ : i = 62
        · subst h₄; simp
        · by_cases h₅ : i = 63
          · subst h₅; simp
          · rw [if_neg h₁, if_neg h₂, if_neg h₄, if_neg h₅, if_neg h₁,
              if_neg (show ¬ (i - 32 < 29) by omega), if_neg (show ¬ (i - 32 - 29 < 1) by omega),
              if_neg (show ¬ (i - 32 - 29 - 1 < 1) by omega)]
            simp; omega

/-- A canonical packing holds its record. -/
theorem unpackT_packT (x : Transaction) : unpackT (packT x) = .ok x := by
  obtain ⟨p, q, a, v⟩ := x
  have ha : (packT ⟨p, q, a, v⟩).extractLsb' 32 29 = a := by
    apply BitVec.eq_of_getLsbD_eq
    intro i hi
    simp only [BitVec.getLsbD_extractLsb', packT_getLsbD]
    simp [hi, show 32 + i < 61 by omega]
  have hv : (packT ⟨p, q, a, v⟩).extractLsb' 0 32 = v := by
    apply BitVec.eq_of_getLsbD_eq
    intro i hi
    simp only [BitVec.getLsbD_extractLsb', packT_getLsbD]
    simp [hi]
  simp only [unpackT, ha, hv, packT_getLsbD]
  simp

/-- A packing with `z = 0` is the packing of the record it holds. -/
theorem packT_unpackT {w : BitVec 64} {x : Transaction} (h : unpackT w = .ok x) : packT x = w := by
  unfold unpackT at h
  split at h
  · cases h
  · rename_i hz
    cases h
    apply BitVec.eq_of_getLsbD_eq
    intro i hi
    simp only [packT_getLsbD, BitVec.getLsbD_extractLsb']
    by_cases h₁ : i < 32
    · simp [h₁]
    · by_cases h₂ : i < 61
      · simp [h₁, h₂, show i - 32 < 29 by omega, show 32 + (i - 32) = i by omega]
      · by_cases h₃ : i = 61
        · subst h₃; simpa using hz
        · by_cases h₄ : i = 62
          · subst h₄; simp
          · have h₅ : i = 63 := by omega
            subst h₅; simp

/-- Decoding a canonical packing reads its record. -/
theorem decodeT_pack (x : Transaction) : decodeT (packT x) = .ok x.instr := by
  simp [decodeT, unpackT_packT]

/-- What a word that spells a transaction is: the packing of its record. -/
theorem decodeT_record {w : BitVec 64} {i : Instr} (h : decodeT w = .ok i) :
    ∃ x, packT x = w ∧ x.instr = i := by
  unfold decodeT at h
  split at h
  · rename_i x hx; cases h; exact ⟨x, packT_unpackT hx, rfl⟩
  · cases h

/-- Format T spells transactions only (`30_encoding.md` R90). -/
theorem format_of_decodeT {w : BitVec 64} {i : Instr} (h : decodeT w = .ok i) : i.format = .t := by
  obtain ⟨x, -, rfl⟩ := decodeT_record h
  unfold Transaction.instr
  split <;> rfl

/-- Format C spells commands only (R90). -/
theorem format_of_decodeC {w : BitVec 32} {i : Instr} (h : decodeC w = .ok i) : i.format = .c := by
  unfold decodeC at h
  split_ifs at h <;> cases h <;> rfl

end Sys2Proof
end

