-- ==== Sys2Proof/Laws/Exec.lean ====
section
/-! SUPPORT. What each operation does, said once: its effect on the engine, and that `exec` answers a
next state with it; the dispatch of commands (`40_host_commands.md` R124). -/

namespace Sys2Proof.Machine

/-! ### Commands -/

theorem Engine.idle_not_busy {e : Engine} (h : e.STG = Stage.idle) : e.isBusy = false := by
  simp [Engine.isBusy, h]

theorem Engine.done_not_busy {e : Engine} (h : e.STG = Stage.done) : e.isBusy = false := by
  simp [Engine.isBusy, h]

theorem Engine.fault_not_busy {e : Engine} (h : e.STG = Stage.fault) : e.isBusy = false := by
  simp [Engine.isBusy, h]

theorem Engine.busy_not_fault {e : Engine} (h : e.isBusy = true) : e.isFault = false := by
  cases hf : e.isFault with
  | false => rfl
  | true =>
    rw [Engine.fault_not_busy ((Engine.isFault_iff e).mp hf)] at h
    cases h

/-- In FAULT only `CLR` acts. -/
theorem Engine.command_fault {e : Engine} (h : e.isFault = true) (v : Word) :
    e.command v = if v = 0x00000002#32 then e.clear else e := by
  simp [Engine.command, h]

/-- A word that is none of 0, 1, 2 fails the check of R124. -/
theorem command_check {v : Word} (h₀ : v ≠ 0#32) (h₁ : v ≠ 1#32) (h₂ : v ≠ 2#32) :
    v.extractLsb' 4 28 ≠ 0#28 ∨ 3 ≤ (v.extractLsb' 0 4).toNat := by
  by_contra h
  push Not at h
  obtain ⟨ha, hb⟩ := h
  have ha' := congrArg BitVec.toNat ha
  simp only [BitVec.extractLsb'_toNat, Nat.shiftRight_eq_div_pow] at ha' hb
  have n₀ := fun h => h₀ (BitVec.eq_of_toNat_eq h)
  have n₁ := fun h => h₁ (BitVec.eq_of_toNat_eq h)
  have n₂ := fun h => h₂ (BitVec.eq_of_toNat_eq h)
  have := v.isLt
  simp at ha' n₀ n₁ n₂
  omega

/-- Outside FAULT a word that is none of 0, 1, 2 raises IllegalCommand. -/
theorem Engine.command_illegal {e : Engine} (hf : e.isFault = false) {v : Word} (h₀ : v ≠ 0#32)
    (h₁ : v ≠ 1#32) (h₂ : v ≠ 2#32) : e.command v = e.raise .illegalCommand := by
  unfold Engine.command
  rw [if_neg (by simp [hf]), if_pos (command_check h₀ h₁ h₂)]

/-- `NOP` changes nothing in any stage (R125). -/
@[simp] theorem Engine.command_nop (e : Engine) : e.command 0x00000000#32 = e := by
  simp [Engine.command]

/-- `START` by stage (R124). -/
theorem Engine.command_start (e : Engine) :
    e.command 0x00000001#32 =
      if e.isFault then e else if e.isBusy then e.raise .busyViolation else e.start := by
  simp [Engine.command]

/-- `CLR` by stage (R124). -/
theorem Engine.command_clr (e : Engine) :
    e.command 0x00000002#32 = if e.isBusy then e.raise .busyViolation else e.clear := by
  cases hb : e.isBusy with
  | true => simp [Engine.command, Engine.busy_not_fault hb, hb]
  | false => cases hf : e.isFault <;> simp [Engine.command, hf, hb]

/-- `START` accepted (R126). -/
theorem Engine.start_accepted {e : Engine} (h₁ : e.LEN.toNat < 2 ^ 29)
    (h₂ : e.LEN.toNat ≤ e.M.size) :
    e.start = { e with H := iv, NBLK := blockCount e.LEN, BI := 0#24 }.seq Stage.seg 0#7 := by
  unfold Engine.start
  rw [if_neg (by omega)]

/-- `START` refused (R201). -/
theorem Engine.start_tooLarge {e : Engine} (h : 2 ^ 29 ≤ e.LEN.toNat ∨ e.M.size < e.LEN.toNat) :
    e.start = e.raise .inputTooLarge := by
  unfold Engine.start
  rw [if_pos h]

/-- The block count fits its 24 bits for every accepted length (R30). -/
theorem blockCount_toNat {len : Word} (h : len.toNat < 2 ^ 29) :
    (blockCount len).toNat = (len.toNat + 72) / 64 := by
  simp only [blockCount, BitVec.toNat_ofNat]
  omega

/-- Everything a command word can do (R124): nothing, a fault, the return to IDLE, or the start of a
computation. -/
theorem Engine.command_spec (e : Engine) (v : Word) :
    e.command v = e ∨ (∃ k, e.command v = e.raise k) ∨
    (e.isBusy = false ∧ e.command v = e.clear) ∨
    (e.isFault = false ∧ e.isBusy = false ∧ e.LEN.toNat < 2 ^ 29 ∧ e.LEN.toNat ≤ e.M.size ∧
      e.command v =
        { e with H := iv, NBLK := blockCount e.LEN, BI := 0#24 }.seq Stage.seg 0#7) := by
  unfold Engine.command
  split
  · rename_i hf
    split
    · exact .inr (.inr (.inl ⟨Engine.fault_not_busy ((Engine.isFault_iff e).mp hf), rfl⟩))
    · exact .inl rfl
  · rename_i hf
    split
    · exact .inr (.inl ⟨_, rfl⟩)
    · split
      · exact .inl rfl
      · split
        · exact .inr (.inl ⟨_, rfl⟩)
        · rename_i hb
          split
          · by_cases h : 2 ^ 29 ≤ e.LEN.toNat ∨ e.M.size < e.LEN.toNat
            · exact .inr (.inl ⟨_, Engine.start_tooLarge h⟩)
            · exact .inr (.inr (.inr ⟨by simpa using hf, by simpa using hb, by omega, by omega,
                Engine.start_accepted (by omega) (by omega)⟩))
          · exact .inr (.inr (.inl ⟨by simpa using hb, rfl⟩))

/-! ### The effect of an operation -/

/-- What an operation does to the engine. -/
def effect (i : Instr) (e : Engine) : Engine :=
  match i with
  | .rd _ => e
  | .wr r v => e.writeReg r v
  | .rdm _ => e
  | .wrm a b => e.writeMessage a.toNat b
  | .nop => e.command 0x00000000#32
  | .start => e.command 0x00000001#32
  | .clr => e.command 0x00000002#32
  | .ldw t => e.loadWord t
  | .cpw j => e.copyWord j
  | .xw j => e.deriveWord j
  | .lds => e.loadWorking
  | .rnd0 j => e.roundStep 0 j
  | .rnd1 j => e.roundStep 1 j
  | .rnd2 j => e.roundStep 2 j
  | .rnd3 j => e.roundStep 3 j
  | .fold => e.foldState
  | .hexw k => e.encodeWord k

/-- Every operation completes, with its effect on the engine; the turns to come stay. -/
theorem exec_spec (i : Instr) (s : State) :
    ∃ t, exec i s = .next t ∧ t.engine = effect i s.engine ∧ t.turns = s.turns := by
  cases i <;> exact ⟨_, rfl, by simp [effect], by simp⟩

/-- What an operation's next state is, read off from `exec_spec`. -/
theorem exec_inv {i : Instr} {s t : State} (h : exec i s = .next t) :
    t.engine = effect i s.engine ∧ t.turns = s.turns := by
  obtain ⟨u, hu, he, ht⟩ := exec_spec i s
  rw [hu] at h
  cases h
  exact ⟨he, ht⟩

/-- A micro-operation changes the engine only. -/
theorem exec_micro {i : Instr} (hi : i.format = .s) (s : State) :
    exec i s = .next { s with engine := effect i s.engine } := by
  cases i <;> first | rfl | cases hi

/-- A write of `CMD` with a defined word is that command. -/
theorem exec_asCommand (r : Reg) (v : Word) (s : State) :
    exec (asCommand r v) s = exec (.wr r v) s := by
  cases r <;> try rfl
  unfold asCommand decodeC
  split_ifs with h₀ h₁ h₂
  · subst h₀; rfl
  · subst h₁; rfl
  · subst h₂; rfl
  · rfl

end Sys2Proof.Machine
end

