-- ==== Sys2Proof/Laws/Step.lean ====
section
/-! SUPPORT. What a step can do, said once; decoding of the sequencer word by stage. -/

namespace Sys2Proof.Machine

/-- A step that goes on ran an operation, waited, or was the reset event. -/
theorem step_cases {s t : State} (h : step s = .next t) :
    (∃ i, s.fetch = .run i ∧ exec i s.taken = .next t) ∨
    (s.fetch = .wait ∧ t = s.taken) ∨
    (s.fetch = .reset ∧ t = s.taken.resetEvent) := by
  unfold step at h
  split at h
  · rename_i i hi; exact .inl ⟨i, hi, h⟩
  · rename_i hw; cases h; exact .inr (.inl ⟨hw, rfl⟩)
  · rename_i hr; cases h; exact .inr (.inr ⟨hr, rfl⟩)
  · cases h
  · cases h

/-- What the engine's turn comes to in terms of the two sequencer registers. -/
theorem fetchEngine_eq (e : Engine) :
    fetchEngine e = match decodeSeq e.STG e.J with
      | .ok i => .run i
      | .error .idleWord => .wait
      | .error _ => .unreachable := by
  cases hd : decodeSeq e.STG e.J with
  | ok i => simp [fetchEngine, hd]
  | error w => cases w <;> simp [fetchEngine, hd]

/-- The ten micro-operations by control word (`30_encoding.md` R97). -/
theorem decodeSeq_ok {g : BitVec 4} {j : Index} {i : Instr} (h : decodeSeq g j = .ok i) :
    (g = Stage.seg ∧ j.toNat ≤ 15 ∧ i = .ldw j) ∨
    (g = Stage.xpd ∧ j.toNat ≤ 15 ∧ i = .cpw j) ∨
    (g = Stage.xpd ∧ 16 ≤ j.toNat ∧ j.toNat ≤ 79 ∧ i = .xw j) ∨
    (g = Stage.lds ∧ j.toNat = 0 ∧ i = .lds) ∨
    (g = Stage.rnd ∧ j.toNat ≤ 19 ∧ i = .rnd0 j) ∨
    (g = Stage.rnd ∧ 20 ≤ j.toNat ∧ j.toNat ≤ 39 ∧ i = .rnd1 j) ∨
    (g = Stage.rnd ∧ 40 ≤ j.toNat ∧ j.toNat ≤ 59 ∧ i = .rnd2 j) ∨
    (g = Stage.rnd ∧ 60 ≤ j.toNat ∧ j.toNat ≤ 79 ∧ i = .rnd3 j) ∨
    (g = Stage.fold ∧ j.toNat = 0 ∧ i = .fold) ∨
    (g = Stage.enc ∧ j.toNat ≤ 4 ∧ i = .hexw j) := by
  unfold decodeSeq at h
  split_ifs at h <;> simp only [Except.ok.injEq] at h <;> subst h <;> simp_all <;> omega

/-- The idle words (R99). -/
theorem decodeSeq_idle {g : BitVec 4} {j : Index} (h : decodeSeq g j = .error .idleWord) :
    (g = Stage.idle ∨ g = Stage.done ∨ g = Stage.fault) ∧ j.toNat = 0 := by
  unfold decodeSeq at h
  split_ifs at h <;> simp_all

/-- The operation of a micro-operation turn is a micro-operation. -/
theorem decodeSeq_format {g : BitVec 4} {j : Index} {i : Instr} (h : decodeSeq g j = .ok i) :
    i.format = .s := by
  rcases decodeSeq_ok h with h | h | h | h | h | h | h | h | h | h <;> simp [h, Instr.format]

/-- What the host puts on the port is a transaction or a command, never a micro-operation (R90). -/
theorem fetchHost_format {w : BitVec 64} {i : Instr} (h : fetchHost w = .run i) : i.format ≠ .s := by
  unfold fetchHost at h
  split at h
  · cases h
    rename_i r v _
    unfold asCommand decodeC
    split_ifs <;> cases r <;> simp [Instr.format]
  · rename_i i' hne hd
    cases h
    unfold decodeT at hd
    split at hd
    · cases hd
      unfold Transaction.instr
      split <;> simp [Instr.format]
    · cases hd
  · cases h

/-- The engine after one of its turns. -/
def Engine.micro (e : Engine) : Engine :=
  match decodeSeq e.STG e.J with
  | .ok i => effect i e
  | .error _ => e

/-- On a control word of R35's set the engine's turn is `Engine.micro` and nothing else. -/
theorem step_engine {s : State} (ht : s.turn = .engine) (hl : s.engine.SeqLegal) :
    step s = .next { s with engine := s.engine.micro, turns := s.turns.tail } := by
  have hne : decodeSeq s.engine.STG s.engine.J ≠ .error .unreachableWord := by
    unfold decodeSeq
    rcases hl with h | h | h | h | h | h | h | h | h <;> rw [h.1] <;>
      simp [Stage.idle, Stage.seg, Stage.xpd, Stage.lds, Stage.rnd, Stage.fold, Stage.enc,
        Stage.done, Stage.fault, h.2]
    all_goals split_ifs <;> simp_all
  unfold step State.fetch
  rw [ht]
  simp only [fetchEngine_eq]
  unfold Engine.micro
  cases hd : decodeSeq s.engine.STG s.engine.J with
  | ok i => simp only [exec_micro (decodeSeq_format hd)]; rfl
  | error w =>
    cases w with
    | idleWord => rfl
    | unreachableWord => exact absurd hd hne
    | invalidTransaction =>
      exfalso; revert hd; unfold decodeSeq; split_ifs <;> simp
    | illegalCommand =>
      exfalso; revert hd; unfold decodeSeq; split_ifs <;> simp

/-- What one engine turn does, by stage, in a control word of R35's set. -/
theorem Engine.micro_spec {e : Engine} (h : e.SeqLegal) :
    (e.STG = Stage.seg ∧ e.J.toNat ≤ 15 ∧ e.micro = e.loadWord e.J) ∨
    (e.STG = Stage.xpd ∧ e.J.toNat ≤ 15 ∧ e.micro = e.copyWord e.J) ∨
    (e.STG = Stage.xpd ∧ 16 ≤ e.J.toNat ∧ e.J.toNat ≤ 79 ∧ e.micro = e.deriveWord e.J) ∨
    (e.STG = Stage.lds ∧ e.J.toNat = 0 ∧ e.micro = e.loadWorking) ∨
    (e.STG = Stage.rnd ∧ e.J.toNat ≤ 79 ∧
      e.micro = e.roundStep (Fin.ofNat 4 (e.J.toNat / 20)) e.J) ∨
    (e.STG = Stage.fold ∧ e.J.toNat = 0 ∧ e.micro = e.foldState) ∨
    (e.STG = Stage.enc ∧ e.J.toNat ≤ 4 ∧ e.micro = e.encodeWord e.J) ∨
    ((e.STG = Stage.idle ∨ e.STG = Stage.done ∨ e.STG = Stage.fault) ∧ e.J.toNat = 0 ∧
      e.micro = e) := by
  have hm : e.micro = match decodeSeq e.STG e.J with
    | .ok i => effect i e
    | .error _ => e := rfl
  rcases h with h | h | h | h | h | h | h | h | h <;> obtain ⟨hg, hj⟩ := h
  · refine .inr (.inr (.inr (.inr (.inr (.inr (.inr ⟨.inl hg, hj, ?_⟩))))))
    rw [hm, decodeSeq_quiescent (.inl hg), if_pos hj]
  · refine .inl ⟨hg, hj, ?_⟩
    rw [hm, hg, decodeSeq_seg, if_pos hj]; rfl
  · by_cases h15 : e.J.toNat ≤ 15
    · refine .inr (.inl ⟨hg, h15, ?_⟩)
      rw [hm, hg, decodeSeq_xpd, if_pos h15]; rfl
    · refine .inr (.inr (.inl ⟨hg, by omega, hj, ?_⟩))
      rw [hm, hg, decodeSeq_xpd, if_neg h15, if_pos hj]; rfl
  · refine .inr (.inr (.inr (.inl ⟨hg, hj, ?_⟩)))
    rw [hm, hg, decodeSeq_lds, if_pos hj]; rfl
  · refine .inr (.inr (.inr (.inr (.inl ⟨hg, hj, ?_⟩))))
    rw [hm, hg, decodeSeq_rnd]
    by_cases h₁ : e.J.toNat ≤ 19
    · rw [if_pos h₁, show e.J.toNat / 20 = 0 by omega]; rfl
    · by_cases h₂ : e.J.toNat ≤ 39
      · rw [if_neg h₁, if_pos h₂, show e.J.toNat / 20 = 1 by omega]; rfl
      · by_cases h₃ : e.J.toNat ≤ 59
        · rw [if_neg h₁, if_neg h₂, if_pos h₃, show e.J.toNat / 20 = 2 by omega]; rfl
        · rw [if_neg h₁, if_neg h₂, if_neg h₃, if_pos hj, show e.J.toNat / 20 = 3 by omega]; rfl
  · refine .inr (.inr (.inr (.inr (.inr (.inl ⟨hg, hj, ?_⟩)))))
    rw [hm, hg, decodeSeq_fold, if_pos hj]; rfl
  · refine .inr (.inr (.inr (.inr (.inr (.inr (.inl ⟨hg, hj, ?_⟩))))))
    rw [hm, hg, decodeSeq_enc, if_pos hj]; rfl
  · refine .inr (.inr (.inr (.inr (.inr (.inr (.inr ⟨.inr (.inl hg), hj, ?_⟩))))))
    rw [hm, decodeSeq_quiescent (.inr (.inl hg)), if_pos hj]
  · refine .inr (.inr (.inr (.inr (.inr (.inr (.inr ⟨.inr (.inr hg), hj, ?_⟩))))))
    rw [hm, decodeSeq_quiescent (.inr (.inr hg)), if_pos hj]

/-- A host turn that goes on ran the transaction on the port: its effect on the engine, and the turn
taken. -/
theorem step_host_spec {s t : State} {w : BitVec 64} (ht : s.turn = .host w)
    (h : step s = .next t) :
    ∃ j, decodeT w = .ok j ∧ t.engine = effect j s.engine ∧ t.turns = s.turns.tail := by
  unfold step State.fetch at h
  rw [ht] at h
  simp only [fetchHost] at h
  split at h
  · rename_i i hf
    split at hf
    · rename_i r v hd
      cases hf
      rw [exec_asCommand] at h
      exact ⟨_, hd, exec_inv h⟩
    · rename_i j _ hd
      cases hf
      exact ⟨_, hd, exec_inv h⟩
    · cases hf
  all_goals first | (cases h; done) | skip
  all_goals rename_i hf; exfalso; revert hf; split <;> simp

end Sys2Proof.Machine
end

