-- ==== Sys2Proof/Laws/PerInstr.lean ====
section
/-! SUPPORT. Per-instruction families: `FormatOf`, the word of an operation is of its format
(`30_encoding.md` R90). -/

namespace Sys2Proof.Laws.FormatOf

/-- The encoder spells an operation in the format of its group. -/
def Statement (i : Instr) : Prop := (encode i).format = i.format

theorem rd (r : Reg) : Statement (.rd r) := rfl

theorem wr (r : Reg) (v : Word) : Statement (.wr r v) := rfl

theorem rdm (a : Addr) : Statement (.rdm a) := rfl

theorem wrm (a : Addr) (b : Byte) : Statement (.wrm a b) := rfl

theorem nop : Statement .nop := rfl

theorem start : Statement .start := rfl

theorem clr : Statement .clr := rfl

theorem ldw (t : Index) : Statement (.ldw t) := rfl

theorem cpw (j : Index) : Statement (.cpw j) := rfl

theorem xw (j : Index) : Statement (.xw j) := rfl

theorem lds : Statement .lds := rfl

theorem rnd0 (j : Index) : Statement (.rnd0 j) := rfl

theorem rnd1 (j : Index) : Statement (.rnd1 j) := rfl

theorem rnd2 (j : Index) : Statement (.rnd2 j) := rfl

theorem rnd3 (j : Index) : Statement (.rnd3 j) := rfl

theorem fold : Statement .fold := rfl

theorem hexw (i : Index) : Statement (.hexw i) := rfl

end Sys2Proof.Laws.FormatOf
end

