-- ==== Sys2Proof/Laws/Run.lean ====
section
/-! SUPPORT. Runs of several steps, and of the engine alone. -/

namespace Sys2Proof.Machine

/-- A run in two parts. -/
theorem run_add (m n : Nat) {s u : State} (h : Sys2Proof.core.run m s = .next u) :
    Sys2Proof.core.run (m + n) s = Sys2Proof.core.run n u := by
  induction m generalizing s with
  | zero => cases h; rw [Nat.zero_add]
  | succ m ih =>
    rw [show m + 1 + n = (m + n) + 1 by omega]
    simp only [Host.Core.run] at h ⊢
    cases hs : Sys2Proof.core.step s with
    | next t => rw [hs] at h; exact ih h
    | fault r => rw [hs] at h; cases h
    | refused r => rw [hs] at h; cases h

/-- The engine's turn keeps the control word in R35's set. -/
theorem Engine.micro_seqLegal {e : Engine} (h : e.SeqLegal) : e.micro.SeqLegal := by
  rcases Engine.micro_spec h with ⟨-, hj, hm⟩ | ⟨-, hj, hm⟩ | ⟨-, -, hj, hm⟩ | ⟨-, -, hm⟩ |
    ⟨-, hj, hm⟩ | ⟨-, -, hm⟩ | ⟨-, hj, hm⟩ | ⟨-, -, hm⟩ <;> rw [hm]
  · simp only [Engine.loadWord, Engine.advance_spec _ _ _ _ (show 15 < 128 by omega), Engine.SeqLegal]
    split
    · simp
    · simp; omega
  · simp [Engine.copyWord, Engine.SeqLegal]; omega
  · simp only [Engine.deriveWord, Engine.advance_spec _ _ _ _ (show 79 < 128 by omega), Engine.SeqLegal]
    split
    · simp
    · simp; omega
  · simp [Engine.loadWorking, Engine.SeqLegal]
  · simp only [Engine.roundStep, Engine.advance_spec _ _ _ _ (show 79 < 128 by omega), Engine.SeqLegal]
    split
    · simp
    · simp; omega
  · unfold Engine.foldState
    split <;> simp [Engine.SeqLegal]
  · simp only [Engine.encodeWord, Engine.advance_spec _ _ _ _ (show 4 < 128 by omega), Engine.SeqLegal]
    split
    · simp
    · simp; omega
  · exact h

/-- With no turn listed, a run is the engine's own: `n` turns of it. -/
theorem run_engine_alone (n : Nat) {s : State} (ht : s.turns = []) (hl : s.engine.SeqLegal) :
    Sys2Proof.core.run n s = .next { s with engine := Engine.micro^[n] s.engine } := by
  induction n generalizing s with
  | zero => rfl
  | succ n ih =>
    have hs : Sys2Proof.core.step s = _ := step_engine (by simp [State.turn, ht]) hl
    simp only [Host.Core.run, hs]
    rw [ih (s := { s with engine := s.engine.micro, turns := s.turns.tail }) (by simp [ht])
      (Engine.micro_seqLegal hl)]
    simp [ht]

end Sys2Proof.Machine
end

