-- ==== Sys2Proof/Laws/Programs.lean ====
section
/-! SUPPORT. What the host's pseudo-instructions and a platform's reset come to, said once. -/

namespace Sys2Proof.Machine

/-! ### Operands of `LOADMSG` -/

/-- An address that 29 bits spell is itself. -/
theorem byteAddr_toNat {a : Nat} (h : a < 2 ^ 29) : (byteAddr a).toNat = a := by
  simp [byteAddr]; omega

/-- A byte that no memory holds is written to an address that no memory has. -/
theorem byteAddr_absent {a cap : Nat} (hc : cap ≤ Config.msgCapMax) (h : cap ≤ a) :
    cap ≤ (byteAddr a).toNat := by
  have : Config.msgCapMax = 536870911 := rfl
  simp [byteAddr]; omega

/-- A length that 32 bits spell is itself. -/
theorem lenWord_toNat {n : Nat} (h : n < 2 ^ 32) : (lenWord n).toNat = n := by
  simp [lenWord]; omega

/-- A length that no memory holds is one that `START` refuses. -/
theorem lenWord_tooLarge {n cap : Nat} (hc : cap ≤ Config.msgCapMax) (h : cap < n) :
    cap < (lenWord n).toNat := by
  have : Config.msgCapMax = 536870911 := rfl
  simp [lenWord]; omega

/-- `LOADMSG` is one transaction for each byte, and the length. -/
@[simp] theorem storeBytes_length (a : Nat) (m : List Byte) : (storeBytes a m).length = m.length := by
  induction m generalizing a with
  | nil => rfl
  | cons b m ih => simp [storeBytes, ih]

@[simp] theorem loadMsg_length (m : List Byte) : (loadMsg m).length = m.length + 1 := by
  simp [loadMsg]

/-! ### `WAIT` -/

/-- The transaction `RD STATUS` on the port (`40_host_commands.md` R120). -/
theorem play_rd_status (t : State) :
    play [issue (.rd .status)] t = .next { t with rdata := some t.engine.status, turns := [] } := by
  have hd : decodeT 0x0000000100000000#64 = .ok (.rd .status) := by decide
  have hp : packT ⟨false, false, Reg.addr .status, 0#32⟩ = 0x0000000100000000#64 := by decide
  simp only [play, issue, encode, hp, List.length_singleton, Host.Core.run, Sys2Proof.core, step,
    State.fetch, State.turn, State.withTurns, fetchHost, hd, List.head?_cons, Option.getD_some, exec,
    execRd, Engine.readReg, State.answer, State.taken, List.tail_cons]

/-- A poll after turns that all have a next state reads `STATUS` there and changes no engine state. -/
theorem poll_of_play {g : List Turn} {s t : State} (h : play g s = .next t) :
    poll g s = some ({ t with rdata := some t.engine.status, turns := [] }, t.engine.status) := by
  simp only [poll, h, play_rd_status, Option.map_some]

/-- A poll needs a next state after its turns, and is the poll there. -/
theorem poll_some {g : List Turn} {s u : State} {x : Word} (h : poll g s = some (u, x)) :
    ∃ t, play g s = .next t ∧ u = { t with rdata := some t.engine.status, turns := [] } ∧
      x = t.engine.status := by
  cases hp : play g s with
  | next t =>
    rw [poll_of_play hp] at h
    obtain ⟨rfl, rfl⟩ := Prod.mk.inj (Option.some.inj h)
    exact ⟨t, rfl, rfl, rfl⟩
  | fault r => simp [poll, hp] at h
  | refused r => simp [poll, hp] at h

/-- Bit 0 of `STATUS` is BUSY (`10_state.md` R40). -/
theorem Engine.status_bit0 (e : Engine) : e.status.getLsbD 0 = e.isBusy := by
  rw [BitVec.getLsbD, e.toNat_status, Nat.testBit_zero]
  cases e.isBusy <;> simp <;> omega

/-- One round of `WAIT`: it ends at the poll that finds the engine not BUSY, and goes on otherwise. -/
theorem wait_of_play {g : List Turn} {gs : List (List Turn)} {s t : State} (h : play g s = .next t) :
    wait (g :: gs) s =
      if t.engine.isBusy then wait gs { t with rdata := some t.engine.status, turns := [] }
      else some ({ t with rdata := some t.engine.status, turns := [] }, t.engine.status) := by
  simp only [wait, poll_of_play h, Engine.status_bit0]

/-! ### The platform -/

@[simp] theorem Platform.resetEvent_members (p : Platform) :
    p.resetEvent.members = p.members.map State.resetEvent := rfl

/-- A platform step that goes on is the step of instance `k`, followed by the common reset if its turn
was reset. -/
theorem Platform.stepMember_spec {p q : Platform} {k : Fin p.members.length}
    (h : p.stepMember k = .next q) :
    ∃ t, step p.members[k] = .next t ∧
      q = if p.members[k].turn = .reset then Platform.resetEvent ⟨p.members.set k t⟩
        else ⟨p.members.set k t⟩ := by
  unfold Platform.stepMember at h
  split at h
  · rename_i t ht; cases h; exact ⟨t, ht, rfl⟩
  · cases h
  · cases h

/-- A second reset changes nothing. -/
@[simp] theorem State.resetEvent_resetEvent (s : State) : s.resetEvent.resetEvent = s.resetEvent := rfl

end Sys2Proof.Machine
end

