-- ==== Sys2Proof/Tests/Slice0.lean ====
section
/-! SUPPORT. Tests: words written out from the encodings, ill-formed terms, single steps with results
from the spec's own vectors (`95_test_vectors.md`), and a witness for the hypotheses of each
statement. -/

namespace Sys2Proof.Tests

open Sys2Proof.Machine

/-! ### Helpers -/

def nextOf : Result → Option State
  | .next t => some t
  | .fault _ => none
  | .refused _ => none

/-- One operation, seen through `f`. -/
def after {α : Type} (i : Instr) (s : State) (f : State → α) : Option α := (nextOf (exec i s)).map f

/-- One step, seen through `f`. -/
def stepped {α : Type} (s : State) (f : State → α) : Option α := (nextOf (step s)).map f

/-- A stopped engine with 1024 message bytes. -/
def idle : State := State.powerOn 1024 0

/-- `idle` in another stage, with index and block count. -/
def at_ (stg : BitVec 4) (j : Index) (nblk : BitVec 24) : State :=
  { idle with engine := { idle.engine with STG := stg, J := j, NBLK := nblk } }

/-- A fault state with cause `k`. -/
def faulted (k : BitVec 4) : State :=
  { idle with engine := { idle.engine with STG := 15#4, ECODE := k } }

/-- DONE after one block, with forty characters `0`. -/
def done : State :=
  { idle with engine := { idle.engine with
      STG := 7#4, NBLK := 1#24, DIG := Vector.replicate 40 0x30#8 } }

/-- `"abc"` in the memory of an engine in a given stage. -/
def abc (stg : BitVec 4) (j : Index) : State :=
  { idle with engine := { idle.engine with
      STG := stg, J := j, NBLK := 1#24, LEN := 3#32
      M := { idle.engine.M with cells := [(0, 0x61#8), (1, 0x62#8), (2, 0x63#8)] } } }

/-- Working registers and schedule word of the four-phase vector of section 4.3. -/
def roundAt (j : Index) : State :=
  { idle with engine := { idle.engine with
      STG := 4#4, J := j, NBLK := 1#24
      A := 0x80000000#32, B := 0x00000003#32, C := 0xFFFFFFFF#32, D := 0x0F0F0F0F#32
      E := 0xFFFFFFFF#32, W := rset idle.engine.W j.toNat 0xFFFFFFFF#32 } }

def workOf (s : State) : List Word :=
  [s.engine.A, s.engine.B, s.engine.C, s.engine.D, s.engine.E]

def seqOf (s : State) : BitVec 4 × Index := (s.engine.STG, s.engine.J)

/-! ### Decoding (section 4.6; each word from the fields of R91, R96, R97) -/

theorem test_decode_rd : decodeT 0x0000000100000000#64 = .ok (.rd .status) := by decide

theorem test_decode_rd_ignores_wdata : decodeT 0x00000001DEADBEEF#64 = .ok (.rd .status) := by decide

theorem test_decode_wr : decodeT 0x4000000200000003#64 = .ok (.wr .len 3#32) := by decide

theorem test_decode_wr_reserved_is_not_start :
    decodeT 0x4000004000000001#64 = .ok (.wr (.reserved 64#29) 1#32) := by decide

theorem test_decode_rdm : decodeT 0x8000000000000000#64 = .ok (.rdm 0#29) := by decide

theorem test_decode_wrm : decodeT 0xC000000200000063#64 = .ok (.wrm 2#29 0x63#8) := by decide

theorem test_decode_wrm_largest :
    decodeT 0xDFFFFFFF000000FF#64 = .ok (.wrm 0x1FFFFFFF#29 0xFF#8) := by decide

theorem test_decode_z_is_invalid :
    decodeT 0x2000000000000000#64 = .error .invalidTransaction ∧
    decodeT 0xE000000000000000#64 = .error .invalidTransaction := by decide

/-- A format T word bit by bit: `space ‖ we ‖ z ‖ addr ‖ wdata` (R91), register 25 is `DIGW9` (R38). -/
theorem test_decode_fields :
    decodeT ((0#1 ++ 0#1 ++ 0#1 ++ 25#29 ++ 0#32).cast rfl) = .ok (.rd (.digw 9)) ∧
    decodeT ((0#1 ++ 1#1 ++ 0#1 ++ 8#29 ++ 7#32).cast rfl) = .ok (.wr (.h 4) 7#32) := by decide

theorem test_decode_commands :
    decodeC 0x00000000#32 = .ok .nop ∧ decodeC 0x00000001#32 = .ok .start ∧
    decodeC 0x00000002#32 = .ok .clr := by decide

theorem test_decode_illegal_commands :
    decodeC 0x00000003#32 = .error .illegalCommand ∧
    decodeC 0x0000000F#32 = .error .illegalCommand ∧
    decodeC 0x00000011#32 = .error .illegalCommand ∧
    decodeC 0xFFFFFFFF#32 = .error .illegalCommand := by decide

theorem test_decode_padding :
    decodeS 0x080#11 = .ok (.ldw 0#7) ∧ decodeS 0x08F#11 = .ok (.ldw 15#7) ∧
    decodeS 0x090#11 = .error .unreachableWord := by decide

theorem test_decode_schedule :
    decodeS 0x10F#11 = .ok (.cpw 15#7) ∧ decodeS 0x110#11 = .ok (.xw 16#7) ∧
    decodeS 0x14F#11 = .ok (.xw 79#7) ∧ decodeS 0x150#11 = .error .unreachableWord := by decide

theorem test_decode_rounds :
    decodeS 0x213#11 = .ok (.rnd0 19#7) ∧ decodeS 0x214#11 = .ok (.rnd1 20#7) ∧
    decodeS 0x227#11 = .ok (.rnd1 39#7) ∧ decodeS 0x228#11 = .ok (.rnd2 40#7) ∧
    decodeS 0x23B#11 = .ok (.rnd2 59#7) ∧ decodeS 0x23C#11 = .ok (.rnd3 60#7) ∧
    decodeS 0x24F#11 = .ok (.rnd3 79#7) ∧ decodeS 0x250#11 = .error .unreachableWord := by decide

theorem test_decode_load_and_fold :
    decodeS 0x180#11 = .ok .lds ∧ decodeS 0x181#11 = .error .unreachableWord ∧
    decodeS 0x280#11 = .ok .fold := by decide

theorem test_decode_serializer :
    decodeS 0x300#11 = .ok (.hexw 0#7) ∧ decodeS 0x304#11 = .ok (.hexw 4#7) ∧
    decodeS 0x305#11 = .error .unreachableWord := by decide

theorem test_decode_idle_words :
    decodeS 0x000#11 = .error .idleWord ∧ decodeS 0x380#11 = .error .idleWord ∧
    decodeS 0x780#11 = .error .idleWord ∧ decodeS 0x400#11 = .error .unreachableWord ∧
    decodeS 0x781#11 = .error .unreachableWord := by decide

/-- The opcode table's numbering: format by width (R90). -/
theorem test_decode_table_words :
    decodeTableWord 64 0xC000000200000063 = some (.wrm 2#29 0x63#8) ∧
    decodeTableWord 32 0x00000001 = some .start ∧
    decodeTableWord 16 0x228 = some (.rnd2 40#7) ∧
    decodeTableWord 16 0x880 = none := by decide

/-! ### Well-formedness: one term each check refuses -/

theorem test_wf_refuses_reserved_names :
    (Instr.rd (.reserved 0#29)).wf = false ∧ (Instr.rd (.reserved 1#29)).wf = false ∧
    (Instr.wr (.reserved 2#29) 0#32).wf = false ∧ (Instr.wr (.reserved 4#29) 0#32).wf = false ∧
    (Instr.rd (.reserved 25#29)).wf = false := by decide

theorem test_wf_accepts_reserved :
    (Instr.rd (.reserved 3#29)).wf = true ∧ (Instr.rd (.reserved 9#29)).wf = true ∧
    (Instr.rd (.reserved 15#29)).wf = true ∧ (Instr.wr (.reserved 26#29) 0#32).wf = true ∧
    (Instr.wr (.reserved 0x40#29) 0#32).wf = true := by decide

theorem test_wf_refuses_ldw : (Instr.ldw 16#7).wf = false := by decide

theorem test_wf_refuses_cpw : (Instr.cpw 16#7).wf = false := by decide

theorem test_wf_refuses_xw : (Instr.xw 15#7).wf = false ∧ (Instr.xw 80#7).wf = false := by decide

theorem test_wf_refuses_rnd0 : (Instr.rnd0 20#7).wf = false := by decide

theorem test_wf_refuses_rnd1 :
    (Instr.rnd1 19#7).wf = false ∧ (Instr.rnd1 40#7).wf = false := by decide

theorem test_wf_refuses_rnd2 :
    (Instr.rnd2 39#7).wf = false ∧ (Instr.rnd2 60#7).wf = false := by decide

theorem test_wf_refuses_rnd3 :
    (Instr.rnd3 59#7).wf = false ∧ (Instr.rnd3 80#7).wf = false := by decide

theorem test_wf_refuses_hexw : (Instr.hexw 5#7).wf = false := by decide

/-! ### Transactions (section 4.5) -/

theorem test_rd_status_fault :
    after (.rd .status) (faulted 3#4) (·.rdata) = some (some 0x34#32) := by decide

theorem test_rd_digw_done :
    after (.rd (.digw 0)) { done with engine := { done.engine with
      DIG := rset (rset done.engine.DIG 0 0x64#8) 1 0x61#8 } } (·.rdata) =
      some (some 0x64613030#32) := by decide

theorem test_wr_len : after (.wr .len 3#32) idle (·.engine.LEN) = some 3#32 := by decide

theorem test_wr_len_busy :
    after (.wr .len 5#32) (abc 1#4 0#7) (fun t => (seqOf t, t.engine.ECODE, t.engine.LEN)) =
      some ((15#4, 0#7), 3#4, 3#32) := by decide

theorem test_rdm : after (.rdm 1#29) (abc 4#4 7#7) (·.rdata) = some (some 0x62#32) := by decide

theorem test_rdm_absent : after (.rdm 1024#29) idle (·.rdata) = some (some 0#32) := by decide

theorem test_wrm :
    after (.wrm 1#29 0xFF#8) (abc 7#4 0#7) (·.engine.M.cells) =
      some [(0, 0x61#8), (1, 0xFF#8), (2, 0x63#8)] := by decide

theorem test_wrm_busy :
    after (.wrm 1024#29 0x62#8) (abc 6#4 0#7) (fun t => (t.engine.STG, t.engine.ECODE)) =
      some (15#4, 3#4) := by decide

/-! ### Commands (section 4.5) -/

theorem test_nop_busy : after .nop (abc 2#4 9#7) (·.engine) = some (abc 2#4 9#7).engine := by decide

theorem test_start_largest :
    after .start { idle with engine := { idle.engine with LEN := 1024#32 } }
      (fun t => (seqOf t, t.engine.NBLK, rget t.engine.H 4)) =
      some ((1#4, 0#7), 17#24, 0xC3D2E1F0#32) := by decide

theorem test_start_too_large :
    after .start { idle with engine := { idle.engine with LEN := 1025#32 } }
      (fun t => (seqOf t, t.engine.ECODE, t.engine.NBLK)) =
      some ((15#4, 0#7), 1#4, 0#24) := by decide

theorem test_clr_fault :
    after .clr (faulted 2#4) (fun t => (seqOf t, t.engine.ECODE)) = some ((0#4, 0#7), 0#4) := by decide

theorem test_clr_busy :
    after .clr (abc 5#4 0#7) (fun t => (seqOf t, t.engine.ECODE)) = some ((15#4, 0#7), 3#4) := by decide

theorem test_illegal_while_busy :
    after (.wr .cmd 3#32) (abc 1#4 2#7) (fun t => (seqOf t, t.engine.ECODE)) =
      some ((15#4, 0#7), 2#4) := by decide

theorem test_illegal_high_bit :
    after (.wr .cmd 0x80000001#32) idle (·.engine.ECODE) = some 2#4 := by decide

/-! ### Padder (section 4.1) -/

theorem test_ldw_first :
    after (.ldw 0#7) (abc 1#4 0#7) (fun t => (rget t.engine.BLK 0, seqOf t)) =
      some (0x61626380#32, (1#4, 1#7)) := by decide

theorem test_ldw_length :
    after (.ldw 15#7) { idle with engine := { idle.engine with
      STG := 1#4, J := 15#7, LEN := 0x1FFFFFFF#32, NBLK := 0x800001#24, BI := 0x800000#24 } }
      (fun t => (rget t.engine.BLK 15, seqOf t)) = some (0xFFFFFFF8#32, (2#4, 0#7)) := by decide

/-! ### Schedule (section 4.2) -/

theorem test_cpw :
    after (.cpw 5#7) { at_ 2#4 5#7 1#24 with engine := { (at_ 2#4 5#7 1#24).engine with
      BLK := rset idle.engine.BLK 5 0xDEADBEEF#32 } }
      (fun t => (rget t.engine.W 5, seqOf t)) = some (0xDEADBEEF#32, (2#4, 6#7)) := by decide

theorem test_xw_wraps :
    after (.xw 16#7) { at_ 2#4 16#7 1#24 with engine := { (at_ 2#4 16#7 1#24).engine with
      W := rset idle.engine.W 0 0x80000000#32 } }
      (fun t => (rget t.engine.W 16, seqOf t)) = some (0x00000001#32, (2#4, 17#7)) := by decide

theorem test_xw_last :
    after (.xw 79#7) { at_ 2#4 79#7 1#24 with engine := { (at_ 2#4 79#7 1#24).engine with
      W := rset (rset (rset (rset idle.engine.W 76 1#32) 71 2#32) 65 4#32) 63 0x40000000#32 } }
      (fun t => (rget t.engine.W 79, seqOf t)) = some (0x8000000E#32, (3#4, 0#7)) := by decide

/-! ### Compression (section 4.3) -/

theorem test_lds :
    after .lds { at_ 3#4 0#7 1#24 with engine := { (at_ 3#4 0#7 1#24).engine with
      H := #v[0x01234567#32, 0x89ABCDEF#32, 0#32, 0xFFFFFFFF#32, 0x80000000#32] } }
      (fun t => (workOf t, seqOf t)) =
      some ([0x01234567#32, 0x89ABCDEF#32, 0#32, 0xFFFFFFFF#32, 0x80000000#32], (4#4, 0#7)) := by
  decide

theorem test_rnd0 :
    after (.rnd0 0#7) (roundAt 0#7) (fun t => (workOf t, seqOf t)) =
      some ([0x699188B6#32, 0x80000000#32, 0xC0000000#32, 0xFFFFFFFF#32, 0x0F0F0F0F#32],
        (4#4, 1#7)) := by decide

theorem test_rnd1 :
    after (.rnd1 20#7) (roundAt 20#7) (fun t => (workOf t, seqOf t)) =
      some ([0x5FCADCA2#32, 0x80000000#32, 0xC0000000#32, 0xFFFFFFFF#32, 0x0F0F0F0F#32],
        (4#4, 21#7)) := by decide

theorem test_rnd2 :
    after (.rnd2 40#7) (roundAt 40#7) (fun t => (workOf t, seqOf t)) =
      some ([0x9E2ACBF9#32, 0x80000000#32, 0xC0000000#32, 0xFFFFFFFF#32, 0x0F0F0F0F#32],
        (4#4, 41#7)) := by decide

theorem test_rnd3 :
    after (.rnd3 60#7) (roundAt 60#7) (fun t => (workOf t, seqOf t)) =
      some ([0xBB53B2D7#32, 0x80000000#32, 0xC0000000#32, 0xFFFFFFFF#32, 0x0F0F0F0F#32],
        (4#4, 61#7)) := by decide

/-- The last round of `"abc"` (R177). -/
theorem test_rnd3_last :
    after (.rnd3 79#7) { roundAt 79#7 with engine := { (roundAt 79#7).engine with
      A := 0x5738D5E1#32, B := 0x860D21CC#32, C := 0x681E6DF6#32, D := 0xD8FDF6AD#32
      E := 0xD7B9DA25#32, W := rset idle.engine.W 79 0x822E0879#32 } }
      (fun t => (t.engine.A, t.engine.C, seqOf t)) =
      some (0x42541B35#32, 0x21834873#32, (5#4, 0#7)) := by decide

/-- The `FOLD` vector of section 4.3, with a block to follow or not. -/
def foldAt (nblk : BitVec 24) : State :=
  { at_ 5#4 0#7 nblk with engine := { (at_ 5#4 0#7 nblk).engine with
    H := #v[0xFFFFFFFF#32, 0x80000000#32, 0#32, 0x12345678#32, 0xC3D2E1F0#32]
    A := 1#32, B := 0x80000000#32, C := 0#32, D := 0xEDCBA988#32, E := 0x3C2D1E10#32 } }

theorem test_fold_last_block :
    after .fold (foldAt 1#24) (fun t => (t.engine.H, seqOf t, t.engine.BI)) =
      some (Vector.replicate 5 0#32, (6#4, 0#7), 0#24) := by decide

theorem test_fold_next_block :
    after .fold (foldAt 2#24) (fun t => (t.engine.H, seqOf t, t.engine.BI)) =
      some (Vector.replicate 5 0#32, (1#4, 0#7), 1#24) := by decide

/-! ### Serializer (section 4.4) -/

theorem test_hexw_word :
    after (.hexw 3#7) { at_ 6#4 3#7 1#24 with engine := { (at_ 6#4 3#7 1#24).engine with
      H := rset idle.engine.H 3 0x89ABCDEF#32 } }
      (fun t => ((List.range 8).map (fun n => rget t.engine.DIG (24 + n)), seqOf t)) =
      some ([0x38#8, 0x39#8, 0x61#8, 0x62#8, 0x63#8, 0x64#8, 0x65#8, 0x66#8], (6#4, 4#7)) := by decide

theorem test_hexw_last :
    after (.hexw 4#7) { at_ 6#4 4#7 1#24 with engine := { (at_ 6#4 4#7 1#24).engine with
      H := rset idle.engine.H 4 0x0000000A#32 } }
      (fun t => (rget t.engine.DIG 38, rget t.engine.DIG 39, seqOf t)) =
      some (0x30#8, 0x61#8, (7#4, 0#7)) := by decide

/-! ### Words of the datapath (sections 4.3, 3.1) -/

theorem test_rotl :
    rotl 0x80000000#32 1 = 0x00000001#32 ∧ rotl 0xF8000000#32 5 = 0x0000001F#32 ∧
    rotl 0x12345678#32 30 = 0x048D159E#32 := by decide

theorem test_phase_functions :
    phaseFn 0 0xFFFF0000#32 0xFF00FF00#32 0xF0F0F0F0#32 = 0xFF00F0F0#32 ∧
    phaseFn 1 0xFFFF0000#32 0xFF00FF00#32 0xF0F0F0F0#32 = 0xF00F0FF0#32 ∧
    phaseFn 2 0xFFFF0000#32 0xFF00FF00#32 0xF0F0F0F0#32 = 0xFFF0F000#32 := by decide

/-! ### The step: fetching, waiting, stopping -/

/-- Right after reset, with nothing placed, the engine waits in IDLE. -/
theorem test_reset_waits : stepped State.reset (·.engine.STG) = some 0#4 := by decide

/-- `START` placed right after reset starts the empty message (R233). -/
theorem test_start_from_reset :
    stepped (State.reset.withFetchWord 32 0x00000001) (fun t => (seqOf t, t.engine.NBLK)) =
      some ((1#4, 0#7), 1#24) := by decide

/-- A control word placed right after reset is the micro-operation run. -/
theorem test_fold_from_reset :
    stepped (State.reset.withFetchWord 16 0x280) seqOf = some (6#4, 0#7) := by decide

theorem test_z_is_refused :
    step (idle.withTurn (.host 0x2000000000000000#64)) = .refused .invalidTransaction := rfl

theorem test_unreachable_word_stops : step (at_ 8#4 0#7 0#24) = .fault .unreachableControlWord := rfl

/-- Reset while BUSY keeps the message (R230). -/
theorem test_reset_keeps_message :
    stepped ((abc 4#4 7#7).withTurn .reset) (fun t => (seqOf t, t.engine.LEN, t.engine.M.cells)) =
      some ((0#4, 0#7), 0#32, [(0, 0x61#8), (1, 0x62#8), (2, 0x63#8)]) := by decide

/-- The pseudo-instruction `LOADMSG` (program P2). -/
theorem test_loadmsg :
    loadMsg [0x61#8, 0x62#8] = [.host 0xC000000000000061#64, .host 0xC000000100000062#64,
      .host 0x4000000200000002#64] := by decide

/-- Operands past what `WRM` and `WR LEN` spell name no byte and a length that is refused (log 22). -/
theorem test_oversize_operands :
    byteAddr (2 ^ 29) = 0x1FFFFFFF#29 ∧ byteAddr 5 = 5#29 ∧
    lenWord (2 ^ 32) = 0xFFFFFFFF#32 ∧ lenWord 3 = 3#32 := by decide

/-- `WAIT` polls again while BUSY: the last `HEXW` comes before the second poll, `STATUS` is `0x02`. -/
theorem test_wait_polls_until_done :
    (wait [[], [.engine], [.engine]] (abc 6#4 4#7)).map (fun p => (p.2, p.1.engine.STG)) =
      some (0x02#32, 7#4) := by decide

/-- `WAIT` has not ended while the engine is BUSY. -/
theorem test_wait_not_ended : wait [[], []] (abc 6#4 4#7) = none := by decide

/-! ### Witnesses: states and operands that meet the hypotheses of each statement -/

/-- Forty characters `0` beside `"abc"`: the message after its digest. -/
def abcDone : State :=
  { abc 7#4 0#7 with engine := { (abc 7#4 0#7).engine with DIG := Vector.replicate 40 0x30#8 } }

/-- DONE with a transaction on the port. -/
def doneWrite (v : BitVec 64) : State := done.withTurn (.host v)

/-- The message of `abc 0` beside another byte and other stale contents. -/
def abcStale : State :=
  { abc 0#4 0#7 with engine := { (abc 0#4 0#7).engine with
      A := 7#32, M := (abc 0#4 0#7).engine.M.write 3 0x64#8 } }

theorem idle_inv : idle.Inv :=
  ⟨by decide, by decide, by decide, by decide, by decide, by decide⟩

theorem abc_idle_inv : (abc 0#4 0#7).Inv :=
  ⟨by decide, by decide, by decide, by decide, by decide, by decide⟩

theorem abc_first_inv : (abc 1#4 0#7).Inv :=
  ⟨by decide, by decide, by decide, by decide, by decide, by decide⟩

theorem abc_schedule_inv : (abc 2#4 79#7).Inv :=
  ⟨by decide, by decide, by decide, by decide, by decide, by decide⟩

theorem done_inv : done.Inv :=
  ⟨by decide, by decide, by decide, by decide, by decide, by decide⟩

theorem abcDone_inv : abcDone.Inv :=
  ⟨by decide, by decide, by decide, by decide, by decide, by decide⟩

theorem abcStale_inv : abcStale.Inv :=
  ⟨by decide, by decide, by decide, by decide, by decide, by decide⟩

theorem small_inv : (State.powerOn 2 0).Inv :=
  ⟨by decide, by decide, by decide, by decide, by decide, by decide⟩

theorem faulted_inv :
    (faulted 1#4).Inv ∧ (faulted 2#4).Inv ∧ (faulted 3#4).Inv :=
  ⟨⟨by decide, by decide, by decide, by decide, by decide, by decide⟩,
    ⟨by decide, by decide, by decide, by decide, by decide, by decide⟩,
    ⟨by decide, by decide, by decide, by decide, by decide, by decide⟩⟩

theorem doneWrite_inv (v : BitVec 64) : (doneWrite v).Inv := done_inv

theorem witness_DecodeEncodeRoundTrip :
    (Instr.xw 16#7).wf = true ∧ (Instr.xw 79#7).wf = true ∧ (Instr.rd (.reserved 26#29)).wf = true := by
  decide

theorem witness_DecodingIgnoresNoOtherBit :
    decodeT 0x80000001DEADBEEF#64 = .ok (.rdm 1#29) ∧
    decodeT 0x2000000000000000#64 = .error .invalidTransaction ∧
    decodeC 0x00000002#32 = .ok .clr ∧ decodeC 0x00000003#32 = .error .illegalCommand ∧
    decodeS 0x304#11 = .ok (.hexw 4#7) ∧ decodeS 0x780#11 = .error .idleWord := by decide

theorem witness_EngineTurnRunsMicroOperation :
    (abc 1#4 15#7).turn = .engine ∧ decodeS (controlWord 1#4 15#7) = .ok (.ldw 15#7) := by decide

theorem witness_HostTurnRunsTransaction :
    (idle.withTurn (.host startWord)).turn = .host startWord ∧
    decodeT startWord = .ok (.wr .cmd 1#32) ∧ decodeC 1#32 = .ok .start := by decide

theorem witness_FetchedWordRuns :
    decodeTableWord 16 0x304 = some (.hexw 4#7) ∧ decodeTableWord 32 2 = some .clr ∧
    decodeTableWord 64 0x8000000500000000 = some (.rdm 5#29) := by decide

theorem witness_QuiescentEngineKeepsState :
    (idle.turn = .engine ∧ idle.engine.J = 0#7 ∧ idle.engine.STG = 0#4) ∧
    (done.turn = .engine ∧ done.engine.J = 0#7 ∧ done.engine.STG = 7#4) ∧
    ((faulted 1#4).turn = .engine ∧ (faulted 1#4).engine.J = 0#7 ∧
      (faulted 1#4).engine.STG = 15#4) := by decide

theorem witness_WordsThatSpellNothingStop :
    (idle.withTurn (.host 0x2000000000000000#64)).turn = .host 0x2000000000000000#64 ∧
    (0x2000000000000000#64).getLsbD 61 = true ∧
    (at_ 1#4 16#7 1#24).turn = .engine ∧
    decodeS (controlWord 1#4 16#7) = .error .unreachableWord := by decide

theorem witness_ResetEventLeavesIdle :
    ((abc 4#4 7#7).withTurn .reset).turn = .reset := by decide

theorem witness_ReadRegisterReturns :
    done.engine.STG.toNat = 7 ∧ (4#29).toNat = 4 + 0 ∧ (8#29).toNat = 4 + 4 ∧
    (16#29).toNat = 16 + 0 ∧ (25#29).toNat = 16 + 9 ∧ (9 ≤ (15#29).toNat ∧ (15#29).toNat ≤ 15) ∧
    26 ≤ (26#29).toNat ∧ (26#29).toNat ≤ (0x1FFFFFFF#29).toNat := by decide

/-- A state for each of the six values of `STATUS` meets the invariant. -/
theorem witness_StatusHasSixValues :
    idle.Inv ∧ (abc 1#4 0#7).Inv ∧ done.Inv ∧ (faulted 1#4).Inv ∧ (faulted 2#4).Inv ∧
    (faulted 3#4).Inv := ⟨idle_inv, abc_first_inv, done_inv, faulted_inv⟩

theorem witness_WriteRegisterStoresLenOnly :
    (1#29).toNat ≠ 0 ∧ (2#29).toNat = 2 ∧ (3#29).toNat ≠ 0 ∧
    (1 ≤ (abc 6#4 4#7).engine.STG.toNat ∧ (abc 6#4 4#7).engine.STG.toNat ≤ 6) ∧
    ¬ (1 ≤ done.engine.STG.toNat ∧ done.engine.STG.toNat ≤ 6) := by decide

theorem witness_ReservedRegistersReadZero :
    (3#29).toNat = 3 ∧ 9 ≤ (9#29).toNat ∧ (15#29).toNat ≤ 15 ∧ 26 ≤ (26#29).toNat ∧
    after (.rd (Reg.ofAddr 15#29)) (abc 4#4 0#7) (·.rdata) = some (some 0#32) := by decide

theorem witness_AbsentBytesReadZero :
    idle.engine.M.size ≤ (1024#29).toNat ∧ (abc 1#4 0#7).engine.M.size ≤ (0x1FFFFFFF#29).toNat ∧
    1 ≤ (abc 1#4 0#7).engine.STG.toNat := by decide

theorem witness_WriteMessageByteStores :
    (abc 1#4 0#7).engine.M.wf ∧ 1 ≤ (abc 1#4 0#7).engine.STG.toNat ∧ done.engine.M.wf ∧
    (1023#29).toNat < done.engine.M.size ∧ ¬ (1024#29).toNat < done.engine.M.size := by decide

theorem witness_StartAccepted :
    idle.engine.STG = 0#4 ∧ idle.engine.LEN.toNat < 2 ^ 29 ∧
    idle.engine.LEN.toNat ≤ idle.engine.M.size ∧
    (abc 7#4 0#7).engine.STG = 7#4 ∧ (abc 7#4 0#7).engine.LEN.toNat ≤ (abc 7#4 0#7).engine.M.size := by
  decide

/-- `idle` with a length register. -/
def withLen (n : Word) : State := { idle with engine := { idle.engine with LEN := n } }

theorem witness_StartTooLargeFaults :
    (withLen 1025#32).engine.STG = 0#4 ∧
    (withLen 1025#32).engine.M.size < (withLen 1025#32).engine.LEN.toNat ∧
    2 ^ 29 ≤ (withLen 0x20000000#32).engine.LEN.toNat := by decide

theorem witness_ClrReturnsToIdle :
    idle.Inv ∧ idle.engine.STG = 0#4 ∧ done.engine.STG = 7#4 ∧ (faulted 1#4).engine.STG = 15#4 :=
  ⟨idle_inv, by decide⟩

theorem witness_BusyWritesFault :
    1 ≤ (abc 1#4 0#7).engine.STG.toNat ∧ (abc 6#4 0#7).engine.STG.toNat ≤ 6 ∧
    Instr.wr .status 1#32 = .wr .status 1#32 ∧ Reg.status ≠ .cmd ∧ Reg.status ≠ .len := by decide

theorem witness_IllegalCommandFaults :
    3#32 ≠ 0#32 ∧ 3#32 ≠ 1#32 ∧ 3#32 ≠ 2#32 ∧ (abc 4#4 0#7).engine.STG ≠ 15#4 ∧
    (faulted 1#4).engine.STG = 15#4 := by decide

theorem witness_FaultEntryWritesThreeRegisters :
    idle.engine.STG ≠ 15#4 ∧ after (.wr .cmd 7#32) idle (·.engine.STG) = some 15#4 := by decide

theorem witness_MicroOperationsNeverFault : (Instr.fold).format = .s := by decide

theorem witness_FirstCauseSticks :
    (faulted 1#4).engine.STG = 15#4 ∧ (Instr.start).format ≠ .s ∧ Instr.start ≠ .clr ∧
    Instr.start ≠ .wr .cmd 2#32 ∧ (faulted 1#4).engine.M.wf ∧
    (0#29).toNat < (faulted 1#4).engine.M.size := by decide

theorem witness_BlockCountOfLength :
    (0#32).toNat < 2 ^ 29 ∧ (55#32).toNat < 2 ^ 29 ∧ (0x1FFFFFFF#32).toNat < 2 ^ 29 := by decide

/-- `"abc"` meets the hypotheses; each clause at the ends of its range. -/
theorem witness_PaddedStreamBytes :
    let e := (abc 1#4 0#7).engine
    e.LEN.toNat < 2 ^ 29 ∧ e.NBLK.toNat = (e.LEN.toNat + 72) / 64 ∧
    2 < e.LEN.toNat ∧ 3 = e.LEN.toNat ∧ e.LEN.toNat < 4 ∧ 59 < 64 * e.NBLK.toNat - 4 := by decide

theorem witness_PaddedStreamIsReferencePadding :
    let e := (abc 1#4 0#7).engine
    e.NBLK.toNat = (e.LEN.toNat + 72) / 64 ∧ 63 < 64 * e.NBLK.toNat := by decide

theorem witness_LdwLoadsPaddedWord : (0#7).toNat ≤ 15 ∧ (15#7).toNat ≤ 15 := by decide

theorem witness_CpwCopiesBlockWord : (0#7).toNat ≤ 15 ∧ (15#7).toNat ≤ 15 := by decide

theorem witness_XwDerivesScheduleWord :
    16 ≤ (16#7).toNat ∧ (16#7).toNat ≤ 79 ∧ 16 ≤ (79#7).toNat ∧ (79#7).toNat ≤ 79 := by decide

theorem witness_RoundsOfFourPhases :
    (19#7).toNat ≤ 19 ∧ (20 ≤ (20#7).toNat ∧ (39#7).toNat ≤ 39) ∧
    (40 ≤ (40#7).toNat ∧ (59#7).toNat ≤ 59) ∧ (60 ≤ (60#7).toNat ∧ (79#7).toNat ≤ 79) := by decide

theorem witness_RoundFunctionsByBit : (0 : Nat) < 32 ∧ (31 : Nat) < 32 := by decide

theorem witness_FoldAddsAndBranches :
    (foldAt 2#24).engine.BI.toNat + 1 < (foldAt 2#24).engine.NBLK.toNat ∧
    ¬ (foldAt 1#24).engine.BI.toNat + 1 < (foldAt 1#24).engine.NBLK.toNat := by decide

theorem witness_HexwWritesEightCharacters : (0#7).toNat ≤ 4 ∧ (4#7).toNat ≤ 4 := by decide

theorem witness_ResetMeetsInvariant : (1024 : Nat) ≤ 2 ^ 29 - 1 ∧ (0 : Nat) ≤ 2 ^ 29 - 1 := by decide

theorem witness_StepKeepsInvariant :
    (abc 2#4 79#7).Inv ∧ stepped (abc 2#4 79#7) seqOf = some (3#4, 0#7) ∧
    (doneWrite 0x4000000200000064#64).Inv ∧
    stepped (doneWrite 0x4000000200000064#64) (·.engine.LEN) = some 100#32 :=
  ⟨abc_schedule_inv, by decide, doneWrite_inv _, by decide⟩

/-- The state that refutes R35's reading: a new length written in DONE. -/
theorem witness_DoneLengthClauseIsKept :
    let s := doneWrite 0x4000000200000064#64
    s.Inv ∧ s.engine.LEN.toNat ≤ s.engine.M.size ∧
      s.engine.NBLK.toNat = (s.engine.LEN.toNat + 72) / 64 ∧
      stepped s (fun t => (t.engine.LEN, t.engine.isDone)) = some (100#32, true) :=
  ⟨doneWrite_inv _, by decide⟩

theorem witness_SequencerFollowsProgram :
    (abc 2#4 79#7).Inv ∧ (abc 2#4 79#7).engine.isBusy = true ∧ (abc 2#4 79#7).turn = .engine ∧
    (abc 2#4 79#7).engine.successor = (3#4, 0, 0) := ⟨abc_schedule_inv, by decide⟩

theorem witness_EngineTurnMakesProgress :
    (abc 1#4 0#7).Inv ∧ (abc 1#4 0#7).engine.isBusy = true ∧
    (abc 1#4 0#7).engine.stepsLeft = 183 ∧ done.Inv ∧ done.engine.stepsLeft = 0 :=
  ⟨abc_first_inv, by decide, by decide, done_inv, by decide⟩

theorem witness_HarmlessTurnsDoNotDisturb :
    ((abc 1#4 0#7).withTurn (.host 0x4000000400000000#64)).turn = .host 0x4000000400000000#64 ∧
    (Turn.host 0x4000000400000000#64).harmless = true := by decide

theorem witness_OnlyTheHostChangesTheInput :
    stepped (done.withTurn (.host 0xC0000005000000FF#64)) (·.engine.M.cells) = some [(5, 0xFF#8)] ∧
    stepped (done.withTurn (.host 0x4000000200000007#64)) (·.engine.LEN) = some 7#32 := by decide

theorem witness_DigestStaysInDone :
    let s := doneWrite 0x4000000200000007#64
    s.Inv ∧ s.engine.STG = 7#4 ∧ s.turn ≠ .reset ∧
      decodeT 0x4000000200000007#64 = .ok (.wr .len 7#32) ∧
      stepped s (·.engine.STG) = some 7#4 := ⟨doneWrite_inv _, by decide⟩

theorem witness_SegStageLoadsBlock :
    (abc 1#4 0#7).Inv ∧ (abc 1#4 0#7).engine.J = 0#7 ∧ (abc 1#4 0#7).turns = [] :=
  ⟨abc_first_inv, by decide⟩

theorem witness_XpdStageBuildsSchedule :
    (abc 2#4 0#7).engine.STG = 2#4 ∧ (abc 2#4 0#7).engine.J = 0#7 ∧ (abc 2#4 0#7).turns = [] := by
  decide

theorem witness_RndStageIsEightyRounds :
    (abc 4#4 0#7).engine.STG = 4#4 ∧ (abc 4#4 0#7).engine.J = 0#7 ∧ (abc 4#4 0#7).turns = [] := by
  decide

/-- 183 engine turns with a poll of `STATUS` and a `NOP` among them. -/
def sampleTurns : List Turn :=
  List.replicate 100 .engine ++ [issue (.rd .status), issue .nop] ++ List.replicate 83 .engine

theorem sampleTurns_harmless :
    (∀ t ∈ sampleTurns, t.harmless = true) ∧ sampleTurns.count .engine = microOps 3 := by
  decide +kernel

theorem witness_DigestIsSha1OfMessage :
    abcDone.Inv ∧ abcDone.engine.STG = 7#4 ∧ abcDone.engine.LEN.toNat ≤ abcDone.engine.M.size ∧
    (∀ t ∈ sampleTurns, t.harmless = true) ∧
    sampleTurns.count .engine = microOps abcDone.engine.LEN.toNat :=
  ⟨abcDone_inv, by decide, by decide, sampleTurns_harmless⟩

theorem witness_DigestDependsOnMessageOnly :
    (abc 0#4 0#7).Inv ∧ abcStale.Inv ∧ (abc 0#4 0#7).engine.STG = 0#4 ∧ abcStale.engine.STG = 0#4 ∧
    (abc 0#4 0#7).engine.LEN = abcStale.engine.LEN ∧
    abcStale.engine.LEN.toNat ≤ abcStale.engine.M.size ∧
    (∀ a, a < (abc 0#4 0#7).engine.LEN.toNat →
      (abc 0#4 0#7).engine.M.byteAt a = abcStale.engine.M.byteAt a) ∧
    (abc 0#4 0#7).engine ≠ abcStale.engine :=
  ⟨abc_idle_inv, abcStale_inv, by decide, by decide, by decide, by decide, by decide, by decide⟩

/-- The turns of `sampleTurns` before two polls of `WAIT`. -/
def sampleGaps : List (List Turn) := [sampleTurns.take 90, sampleTurns.drop 90]

theorem sampleGaps_harmless :
    (∀ g ∈ sampleGaps, ∀ t ∈ g, t.harmless = true) ∧
    sampleGaps.flatten.count .engine = microOps 3 := by
  decide +kernel

theorem witness_WaitEndsWhenNotBusy :
    (abc 1#4 0#7).Inv ∧ (abc 1#4 0#7).engine.isBusy = true ∧
    (∀ g ∈ sampleGaps, ∀ t ∈ g, t.harmless = true) ∧
    (abc 1#4 0#7).engine.stepsLeft ≤ sampleGaps.flatten.count .engine :=
  ⟨abc_first_inv, by decide, sampleGaps_harmless.1, by rw [sampleGaps_harmless.2]; decide⟩

theorem witness_WaitEndsWhenNotBusy_notYet :
    ([[], [Turn.engine]] : List (List Turn)).flatten.count .engine <
      (abc 1#4 0#7).engine.stepsLeft := by decide

theorem witness_WaitEndsWhenNotBusy_first :
    (nextOf (play [.engine] (abc 6#4 4#7))).map (·.engine.STG) = some 7#4 := by decide

theorem witness_DigestOperationReturnsSha1 :
    idle.Inv ∧ idle.engine.STG = 0#4 ∧ [0x61#8, 0x62#8, 0x63#8].length ≤ idle.engine.M.size ∧
    (∀ g ∈ sampleGaps, ∀ t ∈ g, t.harmless = true) ∧
    microOps [0x61#8, 0x62#8, 0x63#8].length ≤ sampleGaps.flatten.count .engine ∧
    (State.powerOn 2 0).Inv ∧
    (State.powerOn 2 0).engine.M.size < [0x61#8, 0x62#8, 0x63#8].length ∧ sampleGaps ≠ [] :=
  ⟨idle_inv, by decide, by decide, sampleGaps_harmless.1, by rw [sampleGaps_harmless.2]; decide,
    small_inv, by decide, by decide⟩

theorem witness_DigestOperationReturnsSha1_notYet :
    ([[], [Turn.engine]] : List (List Turn)).flatten.count .engine <
      microOps [0x61#8, 0x62#8, 0x63#8].length := by decide

theorem witness_BusyUntilLastMicroOperation :
    (abc 0#4 0#7).Inv ∧ (abc 0#4 0#7).engine.STG = 0#4 ∧
    [issue (.rd .status), Turn.engine].count .engine < microOps (abc 0#4 0#7).engine.LEN.toNat :=
  ⟨abc_idle_inv, by decide⟩

theorem witness_BusyUntilLastMicroOperation_last :
    (List.replicate 182 Turn.engine).count .engine < microOps (abc 0#4 0#7).engine.LEN.toNat := by
  decide +kernel

/-- The number of members after a step of member `k` of a platform of two. -/
def membersAfter (k : Fin (Platform.powerOn 2 1024).members.length) : Option Nat :=
  match (Platform.powerOn 2 1024).stepMember k with
  | .next q => some q.members.length
  | .fault _ => none
  | .refused _ => none

theorem witness_PlatformMembersAreIndependent : ∀ k, membersAfter k = some 2 := by decide

/-- Two instances in stage RND, the first with a reset turn. -/
def resetPair : Platform := ⟨[(abc 4#4 7#7).withTurn .reset, abc 4#4 9#7]⟩

/-- A reset turn of one instance is the reset of both (R216). -/
theorem witness_PlatformMembersAreIndependent_reset :
    (match resetPair.stepMember ⟨0, by decide⟩ with
      | .next q => q.members.map (fun t => (seqOf t, t.engine.LEN))
      | .fault _ => []
      | .refused _ => []) = [((0#4, 0#7), 0#32), ((0#4, 0#7), 0#32)] := by decide

end Sys2Proof.Tests
end

/-! PROOFS. State, status and the invariant (`10_state.md`): what a step does to the engine, said by
whose turn it is; that every effect keeps the invariant; who may change `M` and `LEN`. -/

namespace Sys2Proof.Machine

/-! ### The next engine by whose turn it is -/

/-- The engine's turn fetches the micro-operation of its sequencer word. -/
theorem State.fetch_of_engine {s : State} (ht : s.turn = .engine) :
    s.fetch = fetchEngine s.engine := by
  simp only [State.fetch, ht]

/-- A reset turn that goes on is the reset event. -/
theorem step_of_reset {s t : State} (ht : s.turn = .reset) (h : step s = .next t) :
    t = s.taken.resetEvent := by
  have hf : s.fetch = .reset := by simp only [State.fetch, ht]
  simp only [step, hf] at h
  cases h
  rfl

/-- An engine turn that goes on leaves `Engine.micro` of the engine, whatever the control word. -/
theorem step_engine_next {s t : State} (ht : s.turn = .engine) (h : step s = .next t) :
    t.engine = s.engine.micro := by
  unfold Engine.micro
  have hf := (State.fetch_of_engine ht).trans (fetchEngine_eq s.engine)
  cases hd : decodeSeq s.engine.STG s.engine.J with
  | ok i =>
    simp only [step, hf, hd] at h
    exact (exec_inv h).1
  | error why =>
    cases why with
    | idleWord =>
      simp only [step, hf, hd] at h
      cases h
      rfl
    | invalidTransaction | illegalCommand | unreachableWord =>
      simp only [step, hf, hd] at h
      cases h

/-- Everything a step can do to the engine: the effect of the host's transaction, the engine's own
micro-operation, or reset (`20_memory.md` R70). -/
theorem step_engine_cases {s t : State} (h : step s = .next t) :
    (∃ w i, s.turn = .host w ∧ decodeT w = .ok i ∧ t.engine = effect i s.engine) ∨
    (s.turn = .engine ∧ t.engine = s.engine.micro) ∨
    (s.turn = .reset ∧ t.engine = s.engine.reset) := by
  cases ht : s.turn with
  | host w =>
    obtain ⟨i, hd, he, -⟩ := step_host_spec ht h
    exact .inl ⟨w, i, rfl, hd, he⟩
  | engine => exact .inr (.inl ⟨rfl, step_engine_next ht h⟩)
  | reset => exact .inr (.inr ⟨rfl, by rw [step_of_reset ht h]; rfl⟩)

/-- The four transactions of R64, with their operands. -/
theorem decodeT_transaction {w : BitVec 64} {i : Instr} (h : decodeT w = .ok i) :
    (∃ r, i = .rd r) ∨ (∃ r v, i = .wr r v) ∨ (∃ a, i = .rdm a) ∨ (∃ a b, i = .wrm a b) := by
  obtain ⟨x, -, rfl⟩ := decodeT_record h
  unfold Transaction.instr
  split <;> simp

/-! ### What the engine's own operations keep -/

/-- The registers no micro-operation writes: the input, the block count and the cause. -/
def Engine.KeepsInput (e e' : Engine) : Prop :=
  e'.LEN = e.LEN ∧ e'.M = e.M ∧ e'.NBLK = e.NBLK ∧ e'.ECODE = e.ECODE

/-- A micro-operation keeps the input, the block count and the cause. -/
theorem effect_keepsInput {i : Instr} (hi : i.format = .s) (e : Engine) :
    e.KeepsInput (effect i e) := by
  cases i with
  | rd | wr | rdm | wrm | nop | start | clr => cases hi
  | fold =>
    simp only [effect, Engine.foldState]
    split <;> exact ⟨rfl, rfl, rfl, rfl⟩
  | lds | cpw => exact ⟨rfl, rfl, rfl, rfl⟩
  | ldw | xw | rnd0 | rnd1 | rnd2 | rnd3 | hexw =>
    simp [Engine.KeepsInput, effect, Engine.loadWord, Engine.deriveWord, Engine.roundStep,
      Engine.encodeWord]

/-- The engine's turn keeps the input, the block count and the cause. -/
theorem Engine.micro_keepsInput (e : Engine) : e.KeepsInput e.micro := by
  unfold Engine.micro
  split
  · rename_i hd
    exact effect_keepsInput (decodeSeq_format hd) e
  · exact ⟨rfl, rfl, rfl, rfl⟩

/-! ### What the host's writes keep -/

@[simp] theorem Engine.command_M (e : Engine) (v : Word) : (e.command v).M = e.M := by
  obtain h | ⟨k, h⟩ | ⟨-, h⟩ | ⟨-, -, -, -, h⟩ := e.command_spec v <;> simp [h]

@[simp] theorem Engine.command_LEN (e : Engine) (v : Word) : (e.command v).LEN = e.LEN := by
  obtain h | ⟨k, h⟩ | ⟨-, h⟩ | ⟨-, -, -, -, h⟩ := e.command_spec v <;> simp [h]

/-- A register write by register (`40_host_commands.md` R121): a command, a new length, a refused new
length, or nothing. -/
theorem Engine.writeReg_cases (e : Engine) (r : Reg) (v : Word) :
    (r = .cmd ∧ e.writeReg r v = e.command v) ∨
    (r = .len ∧ e.isBusy = true ∧ e.writeReg r v = e.raise .busyViolation) ∨
    (r = .len ∧ e.isBusy = false ∧ e.writeReg r v = { e with LEN := v }) ∨
    e.writeReg r v = e := by
  cases r with
  | cmd => exact .inl ⟨rfl, rfl⟩
  | len =>
    cases hb : e.isBusy with
    | true => exact .inr (.inl ⟨rfl, rfl, by simp [Engine.writeReg, hb]⟩)
    | false => exact .inr (.inr (.inl ⟨rfl, rfl, by simp [Engine.writeReg, hb]⟩))
  | status | h | digw | reserved => exact .inr (.inr (.inr rfl))

@[simp] theorem Engine.writeReg_M (e : Engine) (r : Reg) (v : Word) : (e.writeReg r v).M = e.M := by
  obtain ⟨-, h⟩ | ⟨-, -, h⟩ | ⟨-, -, h⟩ | h := e.writeReg_cases r v <;> simp [h]

/-- A register write that changes `LEN` stores it, outside BUSY (R29). -/
theorem Engine.writeReg_LEN_ne {e : Engine} {r : Reg} {v : Word}
    (h : (e.writeReg r v).LEN ≠ e.LEN) :
    r = .len ∧ e.isBusy = false ∧ (e.writeReg r v).LEN = v := by
  obtain ⟨-, hw⟩ | ⟨-, -, hw⟩ | ⟨hr, hb, hw⟩ | hw := e.writeReg_cases r v
  · exact absurd (by simp [hw]) h
  · exact absurd (by simp [hw]) h
  · exact ⟨hr, hb, by rw [hw]⟩
  · exact absurd (by rw [hw]) h

/-- A message write by stage (R123). -/
theorem Engine.writeMessage_cases (e : Engine) (a : Nat) (b : Byte) :
    (e.isBusy = true ∧ e.writeMessage a b = e.raise .busyViolation) ∨
    (e.isBusy = false ∧ e.writeMessage a b = { e with M := e.M.write a b }) := by
  cases hb : e.isBusy <;> simp [Engine.writeMessage, hb]

@[simp] theorem Engine.writeMessage_LEN (e : Engine) (a : Nat) (b : Byte) :
    (e.writeMessage a b).LEN = e.LEN := by
  obtain ⟨-, h⟩ | ⟨-, h⟩ := e.writeMessage_cases a b <;> simp [h]

/-- A message write that changes `M` is outside BUSY and to an address that exists (R75, R76). -/
theorem Engine.writeMessage_M_ne {e : Engine} {a : Nat} {b : Byte}
    (h : (e.writeMessage a b).M ≠ e.M) : e.isBusy = false ∧ a < e.M.size := by
  obtain ⟨-, hw⟩ | ⟨hb, hw⟩ := e.writeMessage_cases a b
  · exact absurd (by simp [hw]) h
  · refine ⟨hb, ?_⟩
    by_contra ha
    exact h (by simp [hw, Memory.write, ha])

/-! ### The invariant where the engine is not at work -/

/-- IDLE with no cause and a canonical memory meets the invariant, whatever else the registers hold. -/
theorem Engine.inv_of_idle {e : Engine} (hs : e.STG = Stage.idle) (hj : e.J = 0#7)
    (hc : e.ECODE = 0#4) (hm : e.M.wf) : e.Inv := by
  refine ⟨.inl ⟨hs, by simp [hj]⟩, by simp [Engine.CauseLegal, hs, hc], ?_, ?_, ?_, hm⟩
  · simp [Engine.RunLegal, Engine.idle_not_busy hs]
  · simp [Engine.DoneLegal, Engine.isDone, hs]
  · simp [Engine.DigitsLegal, Engine.isDone, hs]

theorem Cause.code_range (k : Cause) : k.code ≠ 0#4 ∧ k.code.toNat ≤ 3 := by
  cases k <;> decide

/-- Fault entry meets the invariant (`60_exceptions.md` R204). -/
theorem Engine.raise_inv {e : Engine} (hm : e.M.wf) (k : Cause) : (e.raise k).Inv := by
  have hs : (e.raise k).STG = Stage.fault := rfl
  obtain ⟨hne, hle⟩ := k.code_range
  refine ⟨by simp [Engine.SeqLegal], by simp [Engine.CauseLegal, hne, hle], ?_, ?_, ?_, hm⟩
  · simp [Engine.RunLegal, Engine.fault_not_busy hs]
  · simp [Engine.DoneLegal, Engine.isDone]
  · simp [Engine.DigitsLegal, Engine.isDone]

theorem Engine.clear_inv {e : Engine} (hm : e.M.wf) : e.clear.Inv := inv_of_idle rfl rfl rfl hm

theorem Engine.reset_inv {e : Engine} (hm : e.M.wf) : e.reset.Inv := inv_of_idle rfl rfl rfl hm

/-- Outside BUSY the invariant does not depend on `LEN`, and on `M` only for its form (log 17). -/
theorem Engine.Inv.setInput {e : Engine} (h : e.Inv) (hb : e.isBusy = false) (len : Word)
    {m : Memory} (hm : m.wf) : ({ e with LEN := len, M := m } : Engine).Inv := by
  obtain ⟨hseq, hcause, -, hdone, hdig, -⟩ := h
  exact ⟨hseq, hcause, fun hb' => absurd (hb.symm.trans hb') (by simp), hdone, hdig, hm⟩

/-! ### The invariant where the engine is at work -/

/-- Outside FAULT the cause is 0 (R36). -/
theorem Engine.Inv.ecode_zero {e : Engine} (h : e.Inv) (hs : e.STG ≠ Stage.fault) :
    e.ECODE = 0#4 := by
  obtain ⟨-, ⟨hcause, -⟩, -⟩ := h
  by_contra hne
  exact hs (hcause.mp hne)

theorem Engine.isBusy_of_stage {e : Engine} {g : BitVec 4} (hs : e.STG = g)
    (hg : 1 ≤ g.toNat ∧ g.toNat ≤ 6) : e.isBusy = true := (isBusy_iff e).mpr (hs ▸ hg)

/-- A busy engine is in neither of the stages with clauses of their own, DONE and FAULT. -/
theorem Engine.busy_ne {e : Engine} (h : e.isBusy = true) :
    e.STG ≠ Stage.done ∧ e.STG ≠ Stage.fault := by
  constructor <;> intro hs <;> simp [Engine.isBusy, hs] at h

/-- `START` accepted meets the invariant (R126, R30). -/
theorem Engine.started_inv {e : Engine} (h : e.Inv) (hf : e.isFault = false)
    (h₁ : e.LEN.toNat < 2 ^ 29) (h₂ : e.LEN.toNat ≤ e.M.size) :
    ({ e with H := iv, NBLK := blockCount e.LEN, BI := 0#24 }.seq Stage.seg 0#7 : Engine).Inv := by
  have hc : e.ECODE = 0#4 := h.ecode_zero fun hs => by simp [Engine.isFault, hs] at hf
  have hn := blockCount_toNat h₁
  obtain ⟨-, -, -, -, -, hm⟩ := h
  refine ⟨by simp [Engine.SeqLegal], by simp [Engine.CauseLegal, hc],
    fun _ => ⟨h₂, hn, ?_, by simp⟩, ?_, ?_, hm⟩
  · simp only [Engine.seq_BI, Engine.seq_NBLK, hn, BitVec.toNat_ofNat]
    omega
  · simp [Engine.DoneLegal, Engine.isDone]
  · simp [Engine.DigitsLegal, Engine.isDone]

/-- A busy engine that stays busy, with the input kept, the block index in range and the serializer's
clauses met, keeps the invariant. -/
theorem Engine.Inv.of_stays_busy {e e' : Engine} (h : e.Inv) (hb : e.isBusy = true)
    (hk : e.KeepsInput e') (hseq : e'.SeqLegal) (hb' : e'.isBusy = true)
    (hbi : e'.BI.toNat < e.NBLK.toNat)
    (henc : e'.STG = Stage.enc → e'.BI.toNat + 1 = e.NBLK.toNat ∧
      ∀ c, c < 8 * e'.J.toNat → IsHexCode (rget e'.DIG c)) : e'.Inv := by
  have hc := h.ecode_zero (busy_ne hb).2
  obtain ⟨hlen, hM, hnblk, hecode⟩ := hk
  obtain ⟨hd, hf⟩ := busy_ne hb'
  obtain ⟨-, -, hrun, -, -, hm⟩ := h
  obtain ⟨hfit, hcount, -, -⟩ := hrun hb
  refine ⟨hseq, ?_, fun _ => ?_, fun hdone => ?_, ⟨fun hs => (henc hs).2, fun hdone => ?_⟩, hM ▸ hm⟩
  · simp [Engine.CauseLegal, hecode, hc, hf]
  · rw [hlen, hM, hnblk]
    exact ⟨hfit, hcount, hbi, fun hs => (henc hs).1⟩
  · exact absurd ((isDone_iff _).mp hdone) hd
  · exact absurd ((isDone_iff _).mp hdone) hd

/-- `HEXW` extends the written characters by eight digits (`44_digest_encoding.md` R192, R193). -/
theorem writeDigits_isHexCode {d : Vector Byte 40} {i : Nat} (x : Word) (hi : i < 5)
    (h : ∀ c, c < 8 * i → IsHexCode (rget d c)) {c : Nat} (hc : c < 8 * (i + 1)) :
    IsHexCode (rget (writeDigits d i x) c) := by
  rw [writeDigits_rget _ _ _ _ hi]
  split
  · exact hexchar_isHexCode _
  · exact h c (by omega)

/-- The block counters of a running engine fit their registers (R30, R34). -/
theorem Engine.Inv.nblk_range {e : Engine} (h : e.Inv) (hb : e.isBusy = true) :
    1 ≤ e.NBLK.toNat ∧ e.NBLK.toNat ≤ 2 ^ 23 + 1 := by
  obtain ⟨-, -, hrun, -, -, -, -, hcap⟩ := h
  obtain ⟨hfit, hcount, -, -⟩ := hrun hb
  have : Config.msgCapMax = 536870911 := rfl
  omega

/-- A busy engine that enters DONE on the last block with all forty characters written keeps the
invariant. -/
theorem Engine.Inv.of_enters_done {e e' : Engine} (h : e.Inv) (hb : e.isBusy = true)
    (hk : e.KeepsInput e') (hseq : e'.SeqLegal) (hs : e'.STG = Stage.done)
    (hbi : e'.BI.toNat + 1 = e.NBLK.toNat)
    (hdig : ∀ c, c < 40 → IsHexCode (rget e'.DIG c)) : e'.Inv := by
  have hc := h.ecode_zero (busy_ne hb).2
  obtain ⟨hpos, hmax⟩ := h.nblk_range hb
  obtain ⟨-, hM, hnblk, hecode⟩ := hk
  obtain ⟨-, -, -, -, -, hm⟩ := h
  refine ⟨hseq, ?_, ?_, fun _ => ?_, ⟨by simp [hs], fun _ => hdig⟩, hM ▸ hm⟩
  · simp [Engine.CauseLegal, hs, hecode, hc]
  · simp [Engine.RunLegal, done_not_busy hs]
  · rw [hnblk]
    exact ⟨hpos, hmax, hbi⟩

/-- `HEXW` keeps the invariant: each step adds one word's characters, and the last enters DONE. -/
theorem Engine.encodeWord_inv {e : Engine} (h : e.Inv) (hs : e.STG = Stage.enc)
    (hj : e.J.toNat ≤ 4) (hk : e.KeepsInput (e.encodeWord e.J))
    (hseq : (e.encodeWord e.J).SeqLegal) : (e.encodeWord e.J).Inv := by
  have hb := isBusy_of_stage hs (by decide)
  have hBI : (e.encodeWord e.J).BI = e.BI := by simp [Engine.encodeWord]
  obtain ⟨-, -, hrun, -, ⟨hdig, -⟩, -⟩ := id h
  obtain ⟨-, -, hlt, hlast⟩ := hrun hb
  have hhex : ∀ c, c < 8 * (e.J.toNat + 1) → IsHexCode (rget (e.encodeWord e.J).DIG c) := by
    intro c hc
    simpa [Engine.encodeWord] using writeDigits_isHexCode _ (by omega) (hdig hs) hc
  by_cases h4 : e.J = 4#7
  · refine h.of_enters_done hb hk hseq (by simp [Engine.encodeWord, h4]) (hBI ▸ hlast hs) ?_
    simpa [h4] using hhex
  · have hJ : (e.encodeWord e.J).J.toNat ≤ e.J.toNat + 1 := by
      simp only [Engine.encodeWord, advance_J, h4, if_false, BitVec.toNat_add, BitVec.toNat_ofNat]
      omega
    refine h.of_stays_busy hb hk hseq (by simp [Engine.isBusy, Engine.encodeWord, h4]) (hBI ▸ hlt) ?_
    exact fun _ => ⟨hBI ▸ hlast hs, fun c hc => hhex c (by omega)⟩

/-- `FOLD` on a block that is not the last (R180). -/
theorem Engine.foldState_next {e : Engine} (h : e.BI.toNat + 1 < e.NBLK.toNat) :
    e.foldState = { e with H := e.foldedH, BI := e.BI + 1#24 }.seq Stage.seg 0#7 := if_pos h

/-- `FOLD` on the last block (R180). -/
theorem Engine.foldState_last {e : Engine} (h : ¬ e.BI.toNat + 1 < e.NBLK.toNat) :
    e.foldState = { e with H := e.foldedH }.seq Stage.enc 0#7 := if_neg h

/-- `FOLD` keeps the invariant: the next block is in range, or the encoder starts on the last. -/
theorem Engine.foldState_inv {e : Engine} (h : e.Inv) (hs : e.STG = Stage.fold)
    (hk : e.KeepsInput e.foldState) (hseq : e.foldState.SeqLegal) : e.foldState.Inv := by
  have hb := isBusy_of_stage hs (by decide)
  obtain ⟨-, -, hrun, -⟩ := id h
  obtain ⟨-, -, hbi, -⟩ := hrun hb
  have hn := e.NBLK.isLt
  by_cases hlast : e.BI.toNat + 1 < e.NBLK.toNat
  · refine h.of_stays_busy hb hk hseq ?_ ?_ ?_ <;> rw [foldState_next hlast]
    · simp [Engine.isBusy]
    · simp only [Engine.seq_BI, BitVec.toNat_add, BitVec.toNat_ofNat]
      omega
    · simp
  · refine h.of_stays_busy hb hk hseq ?_ ?_ ?_ <;> rw [foldState_last hlast]
    · simp [Engine.isBusy]
    · exact hbi
    · simp only [Engine.seq_BI, Engine.seq_J]
      exact fun _ => ⟨by omega, by simp⟩

/-- A micro-operation before the encoder that leaves the block counter and a stage from SEG to FOLD
keeps the invariant. -/
theorem Engine.Inv.of_same_block {e e' : Engine} (h : e.Inv) (hb : e.isBusy = true)
    (hk : e.KeepsInput e') (hseq : e'.SeqLegal) (hbi : e'.BI = e.BI)
    (hs : 1 ≤ e'.STG.toNat ∧ e'.STG.toNat ≤ 5) : e'.Inv := by
  obtain ⟨-, -, hrun, -⟩ := id h
  obtain ⟨-, -, hlt, -⟩ := hrun hb
  refine h.of_stays_busy hb hk hseq ((isBusy_iff _).mpr ⟨hs.1, by omega⟩) (hbi ▸ hlt) fun henc => ?_
  rw [henc] at hs
  exact absurd hs (by decide)

theorem Engine.advance_STG_range (e : Engine) {g n : BitVec 4} {j l : Index}
    (hg : 1 ≤ g.toNat ∧ g.toNat ≤ 5) (hn : 1 ≤ n.toNat ∧ n.toNat ≤ 5) :
    1 ≤ (e.advance g j l n).STG.toNat ∧ (e.advance g j l n).STG.toNat ≤ 5 := by
  rw [advance_STG]
  split <;> assumption

/-- The engine's turn keeps the invariant, stage by stage. -/
theorem Engine.micro_inv {e : Engine} (h : e.Inv) : e.micro.Inv := by
  have hk := e.micro_keepsInput
  obtain ⟨hl, -⟩ := id h
  have hseq := micro_seqLegal hl
  have hb {g : BitVec 4} (hs : e.STG = g) := isBusy_of_stage hs
  obtain ⟨hs, -, hm⟩ | ⟨hs, -, hm⟩ | ⟨hs, -, -, hm⟩ | ⟨hs, -, hm⟩ | ⟨hs, -, hm⟩ | ⟨hs, -, hm⟩ |
    ⟨hs, hj, hm⟩ | ⟨-, -, hm⟩ := micro_spec hl <;> rw [hm] at hk hseq ⊢
  · exact h.of_same_block (hb hs (by decide)) hk hseq (by simp [Engine.loadWord])
      (advance_STG_range _ (by decide) (by decide))
  · exact h.of_same_block (hb hs (by decide)) hk hseq rfl (by simp [Engine.copyWord])
  · exact h.of_same_block (hb hs (by decide)) hk hseq (by simp [Engine.deriveWord])
      (advance_STG_range _ (by decide) (by decide))
  · exact h.of_same_block (hb hs (by decide)) hk hseq rfl (by simp [Engine.loadWorking])
  · exact h.of_same_block (hb hs (by decide)) hk hseq (by simp [Engine.roundStep])
      (advance_STG_range _ (by decide) (by decide))
  · exact foldState_inv h hs hk hseq
  · exact encodeWord_inv h hs hj hk hseq
  · exact h

/-! ### The invariant after a host transaction -/

theorem Engine.command_inv {e : Engine} (h : e.Inv) (v : Word) : (e.command v).Inv := by
  obtain ⟨-, -, -, -, -, hm⟩ := id h
  obtain hc | ⟨k, hc⟩ | ⟨-, hc⟩ | ⟨hf, -, h₁, h₂, hc⟩ := e.command_spec v <;> rw [hc]
  · exact h
  · exact raise_inv hm k
  · exact clear_inv hm
  · exact started_inv h hf h₁ h₂

theorem Engine.writeReg_inv {e : Engine} (h : e.Inv) (r : Reg) (v : Word) : (e.writeReg r v).Inv := by
  obtain ⟨-, -, -, -, -, hm⟩ := id h
  obtain ⟨-, hw⟩ | ⟨-, -, hw⟩ | ⟨-, hb, hw⟩ | hw := e.writeReg_cases r v <;> rw [hw]
  · exact command_inv h v
  · exact raise_inv hm _
  · exact h.setInput hb v hm
  · exact h

theorem Engine.writeMessage_inv {e : Engine} (h : e.Inv) (a : Nat) (b : Byte) :
    (e.writeMessage a b).Inv := by
  obtain ⟨-, -, -, -, -, hm⟩ := id h
  obtain ⟨-, hw⟩ | ⟨hb, hw⟩ := e.writeMessage_cases a b <;> rw [hw]
  · exact raise_inv hm _
  · exact h.setInput hb e.LEN (Memory.write_wf hm a b)

/-- Every transaction keeps the invariant. -/
theorem effect_transaction_inv {w : BitVec 64} {i : Instr} (hd : decodeT w = .ok i) {e : Engine}
    (h : e.Inv) : (effect i e).Inv := by
  obtain ⟨r, rfl⟩ | ⟨r, v, rfl⟩ | ⟨a, rfl⟩ | ⟨a, b, rfl⟩ := decodeT_transaction hd
  · exact h
  · exact Engine.writeReg_inv h r v
  · exact h
  · exact Engine.writeMessage_inv h a.toNat b

/-- Settles O40: a step is a transaction, a micro-operation or reset, and each keeps the invariant. -/
theorem stepKeepsInvariant : Obligations.StepKeepsInvariant := by
  intro s t h hst
  obtain ⟨w, i, -, hd, he⟩ | ⟨-, he⟩ | ⟨-, he⟩ := step_engine_cases hst <;> rw [State.Inv, he]
  · exact effect_transaction_inv hd h
  · exact Engine.micro_inv h
  · obtain ⟨-, -, -, -, -, hm⟩ := h
    exact Engine.reset_inv hm

/-! ### `STATUS` (`10_state.md` R40) -/

theorem Engine.toNat_status_fault {e : Engine} (hs : e.STG = Stage.fault) :
    e.status.toNat = 16 * e.ECODE.toNat + 4 := by
  rw [e.toNat_status]
  simp [Engine.isFault, Engine.isDone, Engine.fault_not_busy hs, hs]

theorem Engine.toNat_status_done {e : Engine} (hs : e.STG = Stage.done) :
    e.status.toNat = 16 * e.ECODE.toNat + 2 := by
  rw [e.toNat_status]
  simp [Engine.isFault, Engine.isDone, Engine.done_not_busy hs, hs]

theorem Engine.toNat_status_idle {e : Engine} (hs : e.STG = Stage.idle) :
    e.status.toNat = 16 * e.ECODE.toNat := by
  rw [e.toNat_status]
  simp [Engine.isFault, Engine.isDone, Engine.idle_not_busy hs, hs]

theorem Engine.toNat_status_busy {e : Engine} (hb : e.isBusy = true) :
    e.status.toNat = 16 * e.ECODE.toNat + 1 := by
  obtain ⟨hd, hf⟩ := busy_ne hb
  rw [e.toNat_status, Engine.isFault, Engine.isDone, beq_eq_false_iff_ne.mpr hf,
    beq_eq_false_iff_ne.mpr hd, hb]
  rfl

/-- The sequencer's four situations: IDLE, BUSY, DONE and FAULT (R32, R35). -/
theorem Engine.SeqLegal.situation {e : Engine} (h : e.SeqLegal) :
    e.STG = Stage.idle ∨ e.isBusy = true ∨ e.STG = Stage.done ∨ e.STG = Stage.fault := by
  rcases h with h | h | h | h | h | h | h | h | h <;> simp [Engine.isBusy, h.1]

/-- In FAULT the cause is one of the three of R200. -/
theorem Engine.CauseLegal.of_fault {e : Engine} (h : e.CauseLegal) (hs : e.STG = Stage.fault) :
    e.ECODE = 1#4 ∨ e.ECODE = 2#4 ∨ e.ECODE = 3#4 := by
  obtain ⟨hiff, hle⟩ := h
  have hne := hiff.mpr hs
  revert hne hle
  generalize e.ECODE = c
  revert c
  decide

/-- Settles O12: the value is `STATUS` as a number, in each situation the invariant allows. -/
theorem statusHasSixValues : Obligations.StatusHasSixValues := by
  intro s h
  refine ⟨s.engine.status, rfl, ?_⟩
  obtain ⟨hl, hcause, -⟩ := id h
  obtain hs | hb | hs | hs := hl.situation
  · have hx := Engine.toNat_status_idle hs
    rw [h.ecode_zero (by simp [hs])] at hx
    exact .inl ⟨hs, BitVec.eq_of_toNat_eq hx⟩
  · have hx := Engine.toNat_status_busy hb
    rw [h.ecode_zero (Engine.busy_ne hb).2] at hx
    exact .inr (.inl ⟨(Engine.isBusy_iff _).mp hb, BitVec.eq_of_toNat_eq hx⟩)
  · have hx := Engine.toNat_status_done hs
    rw [h.ecode_zero (by simp [hs])] at hx
    exact .inr (.inr (.inl ⟨hs, BitVec.eq_of_toNat_eq hx⟩))
  · have hx := Engine.toNat_status_fault hs
    obtain hc | hc | hc := hcause.of_fault hs <;> rw [hc] at hx
    · exact .inr (.inr (.inr (.inl ⟨hs, hc, BitVec.eq_of_toNat_eq hx⟩)))
    · exact .inr (.inr (.inr (.inr (.inl ⟨hs, hc, BitVec.eq_of_toNat_eq hx⟩))))
    · exact .inr (.inr (.inr (.inr (.inr ⟨hs, hc, BitVec.eq_of_toNat_eq hx⟩))))

/-! ### The input -/

/-- DONE after the empty message, with `WR LEN, 100` on the port. -/
def doneBeforeNewLength : State where
  engine := { Engine.afterReset { size := 1024, life := 0, cells := [] } with
    STG := 7#4, NBLK := 1#24, DIG := Vector.replicate 40 0x30#8 }
  rdata := none
  turns := [.host 0x4000000200000064#64]
  draws := 0

/-- `WR LEN, 100` is stored there (`40_host_commands.md` R121). -/
theorem step_doneBeforeNewLength :
    step doneBeforeNewLength = .next { doneBeforeNewLength with
      engine := { doneBeforeNewLength.engine with LEN := 100#32 }, turns := [] } := by
  have hd : decodeT 0x4000000200000064#64 = .ok (.wr .len 100#32) := by decide
  simp only [step, State.fetch, State.turn, doneBeforeNewLength, List.head?_cons, Option.getD_some,
    fetchHost, hd]
  rfl

/-- Refutes O41: in DONE after the empty message (`NBLK = 1`), `WR LEN, 100` is stored, and 100 bytes
take two blocks. -/
theorem not_doneLengthClauseIsKept : ¬ Obligations.DoneLengthClauseIsKept := by
  intro h
  have hinv : doneBeforeNewLength.Inv :=
    ⟨by decide, by decide, by decide, by decide, by decide, by decide⟩
  have hclause := h _ _ hinv (by decide) step_doneBeforeNewLength (by decide)
  revert hclause
  decide

/-- Settles O45: among the effects of a step only a stored `WRM` changes `M`, and only a stored
`WR LEN` and reset change `LEN`. -/
theorem onlyTheHostChangesTheInput : Obligations.OnlyTheHostChangesTheInput := by
  intro s t hst
  obtain ⟨w, i, ht, hd, he⟩ | ⟨-, he⟩ | ⟨ht, he⟩ := step_engine_cases hst <;> rw [he]
  · obtain ⟨r, rfl⟩ | ⟨r, v, rfl⟩ | ⟨a, rfl⟩ | ⟨a, b, rfl⟩ := decodeT_transaction hd
    · exact ⟨fun h => absurd rfl h, fun h => absurd rfl h⟩
    · refine ⟨fun h => absurd (Engine.writeReg_M _ r v) h, fun h => .inr ?_⟩
      obtain ⟨rfl, hb, hv⟩ := Engine.writeReg_LEN_ne h
      exact ⟨hb, w, v, ht, hd, hv⟩
    · exact ⟨fun h => absurd rfl h, fun h => absurd rfl h⟩
    · refine ⟨fun h => ?_, fun h => absurd (Engine.writeMessage_LEN _ a.toNat b) h⟩
      obtain ⟨hb, ha⟩ := Engine.writeMessage_M_ne h
      exact ⟨hb, w, a, b, ht, hd, ha⟩
  · obtain ⟨hlen, hM, -⟩ := s.engine.micro_keepsInput
    exact ⟨fun h => absurd hM h, fun h => absurd hlen h⟩
  · exact ⟨fun h => absurd rfl h, fun _ => .inl ht⟩

/-! ### The engine's turn, reserved registers, reset -/

/-- Settles O5: the engine's turn fetches from the sequencer word. -/
theorem engineTurnRunsMicroOperation : Obligations.EngineTurnRunsMicroOperation := by
  intro s i ht hd
  have hf : s.fetch = .run i := by rw [State.fetch_of_engine ht, fetchEngine, hd]
  rw [step, hf]
  rfl

/-- An address that R44 reserves names no register. -/
theorem ofAddr_reserved {a : Addr}
    (h : a.toNat = 3 ∨ (9 ≤ a.toNat ∧ a.toNat ≤ 15) ∨ 26 ≤ a.toNat) :
    Reg.ofAddr a = .reserved a :=
  Reg.ofAddr_addr (r := .reserved a) (by simpa [Reg.wf, Reg.isReservedAddr, or_assoc] using h)

/-- Settles O14: the address names a reserved register, which has no state. -/
theorem reservedRegistersReadZero : Obligations.ReservedRegistersReadZero := by
  intro s a v h
  rw [ofAddr_reserved h]
  exact ⟨rfl, rfl⟩

/-- Power-on with a legal capacity meets the invariant (`70_reset_and_hazards.md` R232). -/
theorem State.powerOn_inv {cap : Nat} (life : Nat) (h : cap ≤ Config.msgCapMax) :
    (State.powerOn cap life).Inv :=
  Engine.inv_of_idle rfl rfl rfl (Memory.empty_wf h)

/-- Settles O39: reset is power-on with the largest capacity. -/
theorem resetMeetsInvariant : Obligations.ResetMeetsInvariant :=
  ⟨State.powerOn_inv 0 le_rfl, fun _ life h => State.powerOn_inv life h, rfl, rfl, rfl, rfl, rfl, rfl⟩

end Sys2Proof.Machine

/-! PROOFS. Transactions on the port (`20_memory.md`): what a host turn runs, which transactions leave
the engine alone, and message addresses at which no byte exists. -/

namespace Sys2Proof.Machine

/-! ### The host's turn (R70) -/

/-- The host's turn fetches what its packing spells. -/
theorem State.fetch_of_host {s : State} {w : BitVec 64} (ht : s.turn = .host w) :
    s.fetch = fetchHost w := by
  simp only [State.fetch, ht]

/-- A host turn runs its transaction, in the state with the turn taken; the second decoding step of a
write of `CMD` does not change what runs (`30_encoding.md` R101). -/
theorem step_of_host {s : State} {w : BitVec 64} {i : Instr} (ht : s.turn = .host w)
    (hd : decodeT w = .ok i) : step s = exec i s.taken := by
  have hf := State.fetch_of_host ht
  obtain ⟨r, rfl⟩ | ⟨r, v, rfl⟩ | ⟨a, rfl⟩ | ⟨a, b, rfl⟩ := decodeT_transaction hd <;>
    simp only [step, hf, fetchHost, hd]
  exact exec_asCommand r v s.taken

/-- A write of `CMD` with a defined word runs as the command of that word (`30_encoding.md` R101). -/
theorem exec_wr_cmd {v : Word} {c : Instr} (hc : decodeC v = .ok c) (s : State) :
    exec (.wr .cmd v) s = exec c s := by
  have has : asCommand .cmd v = c := by simp only [asCommand, hc]
  rw [← exec_asCommand, has]

/-- Settles O6: the two decoding steps of a host turn. -/
theorem hostTurnRunsTransaction : Obligations.HostTurnRunsTransaction := by
  intro s w i ht hd
  have hs := step_of_host ht hd
  refine ⟨hs, fun v c hi hc => ?_⟩
  rw [hs, hi]
  exact exec_wr_cmd hc s.taken

/-! ### Harmless transactions (`70_reset_and_hazards.md` R248) -/

/-- A harmless operation has no effect on the engine, in any stage. -/
theorem effect_of_harmless {i : Instr} (h : isHarmless i = true) (e : Engine) : effect i e = e := by
  cases i with
  | rd | rdm => rfl
  | nop => exact e.command_nop
  | wr r v =>
    cases r with
    | cmd =>
      obtain rfl : v = 0x00000000#32 := by simpa [isHarmless] using h
      exact e.command_nop
    | len => cases h
    | status | h | digw | reserved => rfl
  | wrm | start | clr | ldw | cpw | xw | lds | rnd0 | rnd1 | rnd2 | rnd3 | fold | hexw => cases h

/-- A harmless host turn has a harmless transaction on the port. -/
theorem Turn.decodeT_of_harmless {w : BitVec 64} (h : (Turn.host w).harmless = true) :
    ∃ i, decodeT w = .ok i ∧ isHarmless i = true := by
  cases hd : decodeT w with
  | ok i => exact ⟨i, rfl, by simpa [Turn.harmless, hd] using h⟩
  | error why => simp [Turn.harmless, hd] at h

/-- Settles O44: every operation completes, and a harmless one has no effect on the engine. -/
theorem harmlessTurnsDoNotDisturb : Obligations.HarmlessTurnsDoNotDisturb := by
  intro s w ht hh
  obtain ⟨i, hd, hi⟩ := Turn.decodeT_of_harmless hh
  obtain ⟨t, hx, he, hturns⟩ := exec_spec i s.taken
  exact ⟨t, (step_of_host ht hd).trans hx, he.trans (effect_of_harmless hi _), hturns⟩

/-! ### Addresses at which no byte exists (R75) -/

theorem exec_rdm (a : Addr) (s : State) :
    exec (.rdm a) s = .next (s.answer (some (s.engine.readMessage a.toNat))) := rfl

theorem exec_wrm (a : Addr) (b : Byte) (s : State) :
    exec (.wrm a b) s = .next (s.hostWrite (·.writeMessage a.toNat b)) := rfl

theorem Engine.readMessage_of_absent {e : Engine} {a : Nat} (h : e.M.size ≤ a) :
    e.readMessage a = 0x00000000#32 := if_neg (Nat.not_lt.mpr h)

theorem Memory.write_of_absent {m : Memory} {a : Nat} (h : m.size ≤ a) (b : Byte) :
    m.write a b = m := if_neg (Nat.not_lt.mpr h)

/-- A write to an absent address is ignored; the busy check comes first. -/
theorem Engine.writeMessage_of_absent {e : Engine} {a : Nat} (h : e.M.size ≤ a) (b : Byte) :
    e.writeMessage a b = if e.isBusy then e.raise .busyViolation else e := by
  rw [Engine.writeMessage, Memory.write_of_absent h]

/-- Settles O17: no byte is read or written there, and the busy check comes first. -/
theorem absentBytesReadZero : Obligations.AbsentBytesReadZero := by
  intro s a b ha
  constructor
  · rw [exec_rdm, Engine.readMessage_of_absent ha]
    rfl
  · simp only [exec_wrm, State.hostWrite, Engine.writeMessage_of_absent ha, Engine.isBusy_iff]
    rfl

end Sys2Proof.Machine

/-! PROOFS. The encoding (`30_encoding.md`): encoder and decoders are inverse but for the bits R103
ignores, the opcode rows are intervals of words, what a fetched word comes to, the order of the hardwired
program, and `WAIT`. -/

namespace Sys2Proof.Machine

/-! ### Decode of encode (R91 to R97) -/

/-- The byte operand of `WRM` is the low byte of its data (R95). -/
theorem extractLsb'_setWidth_byte (b : Byte) : (b.setWidth 32).extractLsb' 0 8 = b := by
  apply BitVec.eq_of_toNat_eq
  have := b.isLt
  simp only [BitVec.extractLsb'_toNat, BitVec.toNat_setWidth, Nat.shiftRight_zero]
  omega

/-- Every well-formed operation is read back from its word, by constructor: a transaction from its
packing, a command by evaluation, a micro-operation from the range of its stage (R97). -/
theorem decode_encode {i : Instr} (h : i.wf = true) : decode (encode i) = .ok i := by
  cases i with
  | rd r => simp only [encode, decode, decodeT_pack, Transaction.instr, Reg.ofAddr_addr (r := r) h]
  | wr r v => simp only [encode, decode, decodeT_pack, Transaction.instr, Reg.ofAddr_addr (r := r) h]
  | rdm a => exact decodeT_pack _
  | wrm a b =>
    simp only [encode, decode, decodeT_pack, Transaction.instr, extractLsb'_setWidth_byte]
  | nop | start | clr => rfl
  | lds | fold => exact decodeS_controlWord _ _
  | ldw j | cpw j | xw j | rnd0 j | rnd1 j | rnd2 j | rnd3 j | hexw j =>
    simp only [Instr.wf, Bool.and_eq_true, decide_eq_true_eq] at h
    simp only [encode, decode, decodeS_controlWord, decodeSeq_seg, decodeSeq_xpd, decodeSeq_rnd,
      decodeSeq_enc]
    repeat rw [if_neg (by omega)]
    rw [if_pos (by omega)]

/-- Settles O2: an operation is read back from its word. -/
theorem decodeEncodeRoundTrip : Obligations.DecodeEncodeRoundTrip := fun _ h => decode_encode h

/-! ### Encode of decode (R103) -/

/-- Masking the data half of a packing masks the data of its record. -/
theorem packT_and (x : Transaction) (m : Word) :
    packT x &&& (BitVec.allOnes 32 ++ m) = packT { x with wdata := x.wdata &&& m } := by
  apply BitVec.eq_of_getLsbD_eq
  intro k hk
  simp only [BitVec.getLsbD_and, packT_getLsbD, BitVec.getLsbD_append, BitVec.getLsbD_allOnes]
  by_cases h : k < 32
  · simp [h]
  · simp [h, show k - 32 < 32 by omega]

/-- The low byte of a word, back in a word, is the word under the mask of its low byte. -/
theorem setWidth_extractLsb'_byte (v : Word) :
    (v.extractLsb' 0 8).setWidth 32 = v &&& 0x000000FF#32 := by
  apply BitVec.eq_of_toNat_eq
  have h : v.toNat &&& 255 = v.toNat % 2 ^ 8 := Nat.and_two_pow_sub_one_eq_mod v.toNat 8
  simp only [BitVec.toNat_setWidth, BitVec.extractLsb'_toNat, Nat.shiftRight_zero, BitVec.toNat_and,
    BitVec.toNat_ofNat, Nat.reducePow, Nat.reduceMod] at h ⊢
  omega

/-- The bits of a transaction's word that its decoding reads: all but the data of a read and the upper
data of `WRM` (R103). -/
def readBits : Instr → BitVec 64
  | .rd _ => 0xFFFFFFFF00000000#64
  | .rdm _ => 0xFFFFFFFF00000000#64
  | .wrm _ _ => 0xFFFFFFFF000000FF#64
  | _ => 0xFFFFFFFFFFFFFFFF#64

/-- The operation of a record is well formed. -/
theorem wf_instr (x : Transaction) : x.instr.wf = true := by
  unfold Transaction.instr
  split
  · exact Reg.ofAddr_wf _
  · exact Reg.ofAddr_wf _
  · rfl
  · rfl

/-- The word of a record's operation is its packing under the mask of the bits that are read: the data
half of each mask is 0 for a read, `0xFF` for `WRM` and all ones for `WR`. -/
theorem encode_instr (x : Transaction) : encode x.instr = .t (packT x &&& readBits x.instr) := by
  obtain ⟨space, we, a, v⟩ := x
  cases space <;> cases we <;>
    simp only [Transaction.instr, encode, readBits, Reg.addr_ofAddr, setWidth_extractLsb'_byte]
  · exact congrArg Coded.t (by simpa using (packT_and ⟨false, false, a, v⟩ 0#32).symm)
  · exact congrArg Coded.t (BitVec.and_allOnes (x := packT ⟨false, true, a, v⟩)).symm
  · exact congrArg Coded.t (by simpa using (packT_and ⟨true, false, a, v⟩ 0#32).symm)
  · exact congrArg Coded.t (packT_and ⟨true, true, a, v⟩ 0x000000FF#32).symm

/-- Format T spells no transaction exactly when `z = 1` (R99, R103). -/
theorem decodeT_of_z {w : BitVec 64} (h : w.getLsbD 61 = true) :
    decodeT w = .error .invalidTransaction := by
  simp [decodeT, unpackT, h]

theorem decodeT_of_not_z {w : BitVec 64} (h : w.getLsbD 61 = false) : ∃ i, decodeT w = .ok i :=
  ⟨_, by rw [decodeT, unpackT, if_neg (Bool.eq_false_iff.mp h)]⟩

/-- Format C spells three commands (R96). -/
theorem decodeC_ok {w : BitVec 32} {i : Instr} (h : decodeC w = .ok i) :
    (w = 0#32 ∧ i = .nop) ∨ (w = 1#32 ∧ i = .start) ∨ (w = 2#32 ∧ i = .clr) := by
  unfold decodeC at h
  split_ifs at h with h₀ h₁ h₂ <;> cases h
  · exact .inl ⟨h₀, rfl⟩
  · exact .inr (.inl ⟨h₁, rfl⟩)
  · exact .inr (.inr ⟨h₂, rfl⟩)

theorem decodeC_illegal {w : BitVec 32} :
    decodeC w = .error .illegalCommand ↔ w ≠ 0#32 ∧ w ≠ 1#32 ∧ w ≠ 2#32 := by
  unfold decodeC
  split_ifs with h₀ h₁ h₂ <;> simp [*]

/-- An index that is 0 as a number. -/
theorem index_eq_zero {j : Index} (h : j.toNat = 0) : j = 0#7 := BitVec.eq_of_toNat_eq h

/-- A micro-operation is well formed, and its word is the control word it was decoded from (R97). -/
theorem encode_of_decodeSeq {g : BitVec 4} {j : Index} {i : Instr} (h : decodeSeq g j = .ok i) :
    i.wf = true ∧ encode i = .s (controlWord g j) := by
  obtain ⟨rfl, hj, rfl⟩ | ⟨rfl, hj, rfl⟩ | ⟨rfl, hl, hj, rfl⟩ | ⟨rfl, hj, rfl⟩ | ⟨rfl, hj, rfl⟩ |
    ⟨rfl, hl, hj, rfl⟩ | ⟨rfl, hl, hj, rfl⟩ | ⟨rfl, hl, hj, rfl⟩ | ⟨rfl, hj, rfl⟩ | ⟨rfl, hj, rfl⟩ :=
    decodeSeq_ok h
  · exact ⟨decide_eq_true hj, rfl⟩
  · exact ⟨decide_eq_true hj, rfl⟩
  · exact ⟨by simp [Instr.wf, hl, hj], rfl⟩
  · exact ⟨rfl, by rw [index_eq_zero hj]; rfl⟩
  · exact ⟨decide_eq_true hj, rfl⟩
  · exact ⟨by simp [Instr.wf, hl, hj], rfl⟩
  · exact ⟨by simp [Instr.wf, hl, hj], rfl⟩
  · exact ⟨by simp [Instr.wf, hl, hj], rfl⟩
  · exact ⟨rfl, by rw [index_eq_zero hj]; rfl⟩
  · exact ⟨decide_eq_true hj, rfl⟩

/-- The idle words (R99). -/
theorem decodeS_idle {w : BitVec 11} :
    decodeS w = .error .idleWord ↔ w = 0x000#11 ∨ w = 0x380#11 ∨ w = 0x780#11 := by
  constructor
  · intro h
    obtain ⟨hg, hj⟩ := decodeSeq_idle h
    rw [← controlWord_fields w, index_eq_zero hj]
    obtain hg | hg | hg := hg <;> simp [hg, controlWord]
  · rintro (rfl | rfl | rfl) <;> rfl

/-- Settles O3: an operation's word is the word it was decoded from, under the mask of the bits its
format reads. -/
theorem decodingIgnoresNoOtherBit : Obligations.DecodingIgnoresNoOtherBit := by
  refine ⟨fun w i h => ?_, fun w => ⟨⟨fun h => ?_, decodeT_of_z⟩, decodeT_of_not_z⟩,
    fun w i h => ?_, fun w => decodeC_illegal, fun w i h => ?_, fun w => decodeS_idle⟩
  · obtain ⟨x, rfl, rfl⟩ := decodeT_record h
    exact ⟨wf_instr x, encode_instr x⟩
  · by_contra hz
    obtain ⟨i, hi⟩ := decodeT_of_not_z (Bool.eq_false_of_not_eq_true hz)
    exact absurd (h.symm.trans hi) (by simp)
  · obtain ⟨rfl, rfl⟩ | ⟨rfl, rfl⟩ | ⟨rfl, rfl⟩ := decodeC_ok h <;> exact ⟨rfl, rfl⟩
  · simpa only [controlWord_fields] using encode_of_decodeSeq h

/-- Settles O1: each word is closed, and its decoding is computed. -/
theorem sampleWordsDecode : Obligations.SampleWordsDecode := by
  unfold Obligations.SampleWordsDecode
  decide

/-! ### The opcode rows as intervals (R95 to R97) -/

/-- The number of words a row leaves free, one more than its free bits as a number. -/
def rowSpan {n : Nat} (r : OpRow n) : Nat := (~~~r.mask).toNat + 1

/-- A row whose mask is the high bits of the word and whose value has no bit outside it: every row of R95 to
R97 is one. -/
abbrev IsBlock {n : Nat} (r : OpRow n) : Prop :=
  ∃ k ∈ List.range n, r.mask = BitVec.allOnes n <<< k ∧ rowSpan r = 2 ^ k ∧ 2 ^ k ∣ r.value.toNat

/-- A word under a mask of its high bits is the word without its low bits. -/
theorem toNat_and_highBits {n : Nat} (w : BitVec n) (k : Nat) :
    (w &&& BitVec.allOnes n <<< k).toNat = w.toNat / 2 ^ k * 2 ^ k := by
  have hshift : w &&& BitVec.allOnes n <<< k = (w >>> k) <<< k := by
    apply BitVec.eq_of_getLsbD_eq
    intro i hi
    by_cases h : i < k
    · simp [h]
    · simp [h, hi, show k + (i - k) = i by omega]
  rw [hshift, BitVec.toNat_shiftLeft, BitVec.toNat_ushiftRight, Nat.shiftLeft_eq,
    Nat.shiftRight_eq_div_pow]
  exact Nat.mod_eq_of_lt (lt_of_le_of_lt (Nat.div_mul_le_self _ _) w.isLt)

/-- A block covers the words from its value on, as many as its mask leaves free. -/
theorem covers_iff {n : Nat} {r : OpRow n} (h : IsBlock r) (w : BitVec n) :
    r.covers w = true ↔ r.value.toNat ≤ w.toNat ∧ w.toNat < r.value.toNat + rowSpan r := by
  obtain ⟨k, -, hm, hs, d, hd⟩ := h
  have hp : 0 < 2 ^ k := Nat.two_pow_pos k
  rw [OpRow.covers, hm, hs, beq_iff_eq, ← BitVec.toNat_inj, toNat_and_highBits, hd,
    Nat.mul_comm (2 ^ k) d, Nat.mul_left_inj hp.ne', Nat.div_eq_iff hp]
  omega

/-- No word is covered by two rows. -/
abbrev RowsDisjoint {n : Nat} (rows : List (OpRow n)) : Prop :=
  rows.Pairwise (fun r q => ∀ w, ¬ (r.covers w = true ∧ q.covers w = true))

/-- Blocks in rising order, each beginning past the end of those before it, do not overlap. -/
theorem disjoint_of_rising {n : Nat} {rows : List (OpRow n)} (hb : ∀ r ∈ rows, IsBlock r)
    (h : rows.Pairwise fun r q => r.value.toNat + rowSpan r ≤ q.value.toNat) :
    RowsDisjoint rows := by
  refine h.imp_of_mem fun hr hq hrq w hw => ?_
  rw [covers_iff (hb _ hr), covers_iff (hb _ hq)] at hw
  omega

/-- Rows and decoder agree when the rows do not overlap, every word of a row decodes, and every word that
decodes is in a row of its mnemonic: that row is then the only row of the word. -/
theorem rows_agree {n : Nat} {rows : List (OpRow n)} {dec : BitVec n → Except DecodeError Instr}
    (hdisj : RowsDisjoint rows)
    (hdec : ∀ r ∈ rows, ∀ w, r.covers w = true → ∃ i, dec w = .ok i)
    (hrow : ∀ w i, dec w = .ok i → ∃ r ∈ rows, r.covers w = true ∧ r.mnemonic = i.mnemonic)
    (w : BitVec n) (m : String) :
    (∃ i, dec w = .ok i ∧ i.mnemonic = m) ↔ ∃ r ∈ rows, r.covers w = true ∧ r.mnemonic = m := by
  constructor
  · rintro ⟨i, hi, rfl⟩
    exact hrow w i hi
  · rintro ⟨r, hr, hc, rfl⟩
    obtain ⟨i, hi⟩ := hdec r hr w hc
    obtain ⟨q, hq, hcq, hm⟩ := hrow w i hi
    have hsymm : Std.Symm fun r q : OpRow n => ∀ w, ¬ (r.covers w = true ∧ q.covers w = true) :=
      ⟨fun _ _ h w hw => h w hw.symm⟩
    obtain rfl : q = r := by
      by_contra hne
      exact hdisj.forall hq hr hne w ⟨hcq, hc⟩
    exact ⟨i, hi, hm.symm⟩

/-- The row of a word among blocks, by the word's number. -/
theorem exists_row_iff {n : Nat} {rows : List (OpRow n)} (hb : ∀ r ∈ rows, IsBlock r) (w : BitVec n)
    (m : String) :
    (∃ r ∈ rows, r.covers w = true ∧ r.mnemonic = m) ↔
      ∃ r ∈ rows, (r.value.toNat ≤ w.toNat ∧ w.toNat < r.value.toNat + rowSpan r) ∧ r.mnemonic = m :=
  exists_congr fun r => and_congr_right fun hr => by rw [covers_iff (hb r hr)]

/-! #### Format T -/

theorem rowsT_block : ∀ r ∈ rowsT, IsBlock r := by decide

theorem rowsT_disjoint : RowsDisjoint rowsT :=
  disjoint_of_rising rowsT_block (by decide)

/-- A word that a row of format T covers has `z = 0`. -/
theorem decodeT_of_row (r : OpRow 64) (hr : r ∈ rowsT) (w : BitVec 64) (hc : r.covers w = true) :
    ∃ i, decodeT w = .ok i := by
  have hbit : r.mask.getLsbD 61 = true ∧ r.value.getLsbD 61 = false := by
    clear hc
    revert r
    decide
  obtain ⟨hm, hv⟩ := hbit
  have hw : w &&& r.mask = r.value := beq_iff_eq.mp hc
  apply decodeT_of_not_z
  rw [← hv, ← hw, BitVec.getLsbD_and, hm, Bool.and_true]

/-- A packing as a number, `z` being 0 (R91). -/
theorem toNat_packT (x : Transaction) :
    (packT x).toNat =
      x.space.toNat * 2 ^ 63 + x.we.toNat * 2 ^ 62 + x.addr.toNat * 2 ^ 32 + x.wdata.toNat := by
  have ha := x.addr.isLt
  have hv := x.wdata.isLt
  simp only [packT, BitVec.toNat_cast, BitVec.toNat_append, BitVec.toNat_ofBool]
  rw [← Nat.shiftLeft_add_eq_or_of_lt (by omega), ← Nat.shiftLeft_add_eq_or_of_lt (by omega),
    ← Nat.shiftLeft_add_eq_or_of_lt (by simp), ← Nat.shiftLeft_add_eq_or_of_lt (Bool.toNat_lt _)]
  simp only [Nat.shiftLeft_eq, BitVec.toNat_zero]
  omega

/-- A transaction's word is in the row of its `space` and `we` (R95). -/
theorem row_of_decodeT (w : BitVec 64) (i : Instr) (h : decodeT w = .ok i) :
    ∃ r ∈ rowsT, r.covers w = true ∧ r.mnemonic = i.mnemonic := by
  obtain ⟨⟨space, we, a, v⟩, rfl, rfl⟩ := decodeT_record h
  have ha := a.isLt
  have hv := v.isLt
  rw [exists_row_iff rowsT_block, toNat_packT]
  cases space <;> cases we <;> simp [rowsT, rowSpan, Transaction.instr, Instr.mnemonic] <;> omega

/-! #### Format C -/

theorem rowsC_disjoint : RowsDisjoint rowsC :=
  disjoint_of_rising (by decide) (by decide)

/-- A row of format C covers its value only. -/
theorem decodeC_of_row (r : OpRow 32) (hr : r ∈ rowsC) (w : BitVec 32) (hc : r.covers w = true) :
    ∃ i, decodeC w = .ok i := by
  have hm : r.mask = BitVec.allOnes 32 := by
    clear hc
    revert r
    decide
  have hw : w &&& r.mask = r.value := beq_iff_eq.mp hc
  rw [hm, BitVec.and_allOnes] at hw
  subst hw
  simp only [rowsC, List.mem_cons, List.not_mem_nil, or_false] at hr
  obtain rfl | rfl | rfl := hr <;> exact ⟨_, rfl⟩

/-- A command's word is its row's value. -/
theorem row_of_decodeC (w : BitVec 32) (i : Instr) (h : decodeC w = .ok i) :
    ∃ r ∈ rowsC, r.covers w = true ∧ r.mnemonic = i.mnemonic := by
  obtain ⟨rfl, rfl⟩ | ⟨rfl, rfl⟩ | ⟨rfl, rfl⟩ := decodeC_ok h <;> decide

/-! #### Format S -/

theorem rowsS_block : ∀ r ∈ rowsS, IsBlock r := by decide

theorem rowsS_disjoint : RowsDisjoint rowsS :=
  disjoint_of_rising rowsS_block (by decide)

theorem toNat_controlStage (w : BitVec 11) : (controlStage w).toNat = w.toNat / 128 := by
  have := w.isLt
  simp only [controlStage, BitVec.extractLsb'_toNat, Nat.shiftRight_eq_div_pow]
  omega

theorem toNat_controlIndex (w : BitVec 11) : (controlIndex w).toNat = w.toNat % 128 := by
  simp only [controlIndex, BitVec.extractLsb'_toNat, Nat.shiftRight_zero]

/-- The stage of a control word is its upper four bits (R93). -/
theorem controlStage_eq {w : BitVec 11} {k : Nat} (h : w.toNat / 128 = k) :
    controlStage w = BitVec.ofNat 4 k := by
  apply BitVec.eq_of_toNat_eq
  have := w.isLt
  rw [toNat_controlStage, h, BitVec.toNat_ofNat]
  omega

/-- The control words that decode, stage by stage (R97). -/
theorem decodeSeq_of_busy {g : BitVec 4} {j : Index}
    (h : (g = Stage.seg ∧ j.toNat ≤ 15) ∨ (g = Stage.xpd ∧ j.toNat ≤ 79) ∨
      (g = Stage.lds ∧ j.toNat = 0) ∨ (g = Stage.rnd ∧ j.toNat ≤ 79) ∨
      (g = Stage.fold ∧ j.toNat = 0) ∨ (g = Stage.enc ∧ j.toNat ≤ 4)) :
    ∃ i, decodeSeq g j = .ok i := by
  obtain ⟨rfl, hj⟩ | ⟨rfl, hj⟩ | ⟨rfl, hj⟩ | ⟨rfl, hj⟩ | ⟨rfl, hj⟩ | ⟨rfl, hj⟩ := h
  · exact ⟨_, (decodeSeq_seg j).trans (if_pos hj)⟩
  · rw [decodeSeq_xpd, if_pos hj]
    split <;> exact ⟨_, rfl⟩
  · exact ⟨_, (decodeSeq_lds j).trans (if_pos hj)⟩
  · rw [decodeSeq_rnd, if_pos hj]
    split_ifs <;> exact ⟨_, rfl⟩
  · exact ⟨_, (decodeSeq_fold j).trans (if_pos hj)⟩
  · exact ⟨_, (decodeSeq_enc j).trans (if_pos hj)⟩

/-- Every row of format S lies in the words of one stage. -/
theorem stage_of_row : ∀ r ∈ rowsS,
    (0x080 ≤ r.value.toNat ∧ r.value.toNat + rowSpan r ≤ 0x090) ∨
    (0x100 ≤ r.value.toNat ∧ r.value.toNat + rowSpan r ≤ 0x150) ∨
    (0x180 ≤ r.value.toNat ∧ r.value.toNat + rowSpan r ≤ 0x181) ∨
    (0x200 ≤ r.value.toNat ∧ r.value.toNat + rowSpan r ≤ 0x250) ∨
    (0x280 ≤ r.value.toNat ∧ r.value.toNat + rowSpan r ≤ 0x281) ∨
    (0x300 ≤ r.value.toNat ∧ r.value.toNat + rowSpan r ≤ 0x305) := by decide

/-- A word that a row of format S covers is in its stage's index range. -/
theorem decodeS_of_row (r : OpRow 11) (hr : r ∈ rowsS) (w : BitVec 11) (hc : r.covers w = true) :
    ∃ i, decodeS w = .ok i := by
  rw [covers_iff (rowsS_block r hr)] at hc
  have hj := toNat_controlIndex w
  apply decodeSeq_of_busy
  obtain h | h | h | h | h | h := stage_of_row r hr
  · exact .inl ⟨controlStage_eq (by omega), by omega⟩
  · exact .inr (.inl ⟨controlStage_eq (by omega), by omega⟩)
  · exact .inr (.inr (.inl ⟨controlStage_eq (by omega), by omega⟩))
  · exact .inr (.inr (.inr (.inl ⟨controlStage_eq (by omega), by omega⟩)))
  · exact .inr (.inr (.inr (.inr (.inl ⟨controlStage_eq (by omega), by omega⟩))))
  · exact .inr (.inr (.inr (.inr (.inr ⟨controlStage_eq (by omega), by omega⟩))))

/-- A micro-operation's word is in a row of its mnemonic (R97): the rows of a mnemonic are its index
range cut at powers of two. -/
theorem row_of_decodeS (w : BitVec 11) (i : Instr) (h : decodeS w = .ok i) :
    ∃ r ∈ rowsS, r.covers w = true ∧ r.mnemonic = i.mnemonic := by
  have hg := toNat_controlStage w
  have hj := toNat_controlIndex w
  rw [exists_row_iff rowsS_block]
  obtain ⟨he, hx, rfl⟩ | ⟨he, hx, rfl⟩ | ⟨he, hl, hx, rfl⟩ | ⟨he, hx, rfl⟩ | ⟨he, hx, rfl⟩ |
    ⟨he, hl, hx, rfl⟩ | ⟨he, hl, hx, rfl⟩ | ⟨he, hl, hx, rfl⟩ | ⟨he, hx, rfl⟩ | ⟨he, hx, rfl⟩ :=
    decodeSeq_ok h <;> rw [he] at hg <;> simp [rowsS, rowSpan, Instr.mnemonic] at hg ⊢ <;> omega

/-- Settles O4: the rows are intervals that do not overlap, their words decode, and a word that decodes is
in a row of its mnemonic. -/
theorem opcodeRowsAgreeWithDecoders : Obligations.OpcodeRowsAgreeWithDecoders :=
  ⟨rows_agree rowsT_disjoint decodeT_of_row row_of_decodeT,
    rows_agree rowsC_disjoint decodeC_of_row row_of_decodeC,
    rows_agree rowsS_disjoint decodeS_of_row row_of_decodeS,
    rowsT_disjoint, rowsC_disjoint, rowsS_disjoint⟩

/-! ### The fetch (R90, R98 to R100) -/

/-- A word the opcode table reads as a control word is the number in 11 bits (log 18). -/
theorem codedOfTable_s {nbits w : Nat} {x : BitVec 11} (h : codedOfTable nbits w = some (.s x)) :
    x = BitVec.ofNat 11 w := by
  unfold codedOfTable at h
  split_ifs at h <;> cases h
  rfl

/-- A word of the opcode table that decodes is a coded word that decodes. -/
theorem decodeTableWord_some {nbits w : Nat} {i : Instr} (h : decodeTableWord nbits w = some i) :
    ∃ c, codedOfTable nbits w = some c ∧ decode c = .ok i := by
  unfold decodeTableWord at h
  split at h
  · rename_i c hc
    refine ⟨c, hc, ?_⟩
    cases hd : decode c with
    | ok j =>
      rw [hd] at h
      exact congrArg Except.ok (Option.some.inj h)
    | error why =>
      rw [hd] at h
      cases h
  · cases h

theorem step_withCoded_t {w : BitVec 64} {i : Instr} (h : decodeT w = .ok i) (s : State) :
    step (s.withCoded (.t w)) = exec i s := step_of_host rfl h

/-- A command on the port is the data of `WR CMD`, and runs as that command (R101). -/
theorem step_withCoded_c {w : BitVec 32} {i : Instr} (h : decodeC w = .ok i) (s : State) :
    step (s.withCoded (.c w)) = exec i s :=
  (step_of_host rfl (decodeT_pack ⟨false, true, Reg.addr .cmd, w⟩)).trans (exec_wr_cmd h s)

theorem step_withCoded_s {w : BitVec 11} {i : Instr} (h : decodeS w = .ok i) (s : State) :
    step (s.withCoded (.s w)) =
      exec i { s with engine := s.engine.seq (controlStage w) (controlIndex w) } :=
  engineTurnRunsMicroOperation _ _ rfl ((decodeS_controlWord _ _).trans h)

/-- Settles O7: by the format the word is read in. -/
theorem fetchedWordRuns : Obligations.FetchedWordRuns := by
  intro s nbits w i h
  obtain ⟨c, hc, hd⟩ := decodeTableWord_some h
  rw [State.withFetchWord, hc]
  cases c with
  | t x =>
    have hf : i.format = .t := format_of_decodeT (show decodeT x = .ok i from hd)
    rw [if_neg (by simp [hf])]
    exact step_withCoded_t hd s
  | c x =>
    have hf : i.format = .c := format_of_decodeC (show decodeC x = .ok i from hd)
    rw [if_neg (by simp [hf])]
    exact step_withCoded_c hd s
  | s x =>
    rw [if_pos (decodeSeq_format hd), ← codedOfTable_s hc]
    exact step_withCoded_s hd s

/-- Settles O8: the control word is idle, and the engine's turn passes. -/
theorem quiescentEngineKeepsState : Obligations.QuiescentEngineKeepsState := by
  intro s ht hj hg
  have hw : decodeSeq s.engine.STG s.engine.J = .error .idleWord := by
    rw [decodeSeq_quiescent hg, hj]
    rfl
  have hf : s.fetch = .wait := by rw [State.fetch_of_engine ht, fetchEngine_eq, hw]
  rw [step, hf]
  rfl

/-- Settles O9: such a packing does not decode, and such a control word decodes to neither an operation
nor an idle word. -/
theorem wordsThatSpellNothingStop : Obligations.WordsThatSpellNothingStop := by
  refine ⟨fun s w ht hz => ?_, fun s ht hno hidle => ?_⟩
  · have hf : s.fetch = .invalid := by rw [State.fetch_of_host ht, fetchHost, decodeT_of_z hz]
    rw [step, hf]
  · have hf : s.fetch = .unreachable := by
      rw [State.fetch_of_engine ht, fetchEngine_eq]
      rw [decodeS_controlWord] at hno
      cases hd : decodeSeq s.engine.STG s.engine.J with
      | ok i => exact absurd hd (hno i)
      | error why =>
        cases why with
        | idleWord =>
          obtain ⟨hg, hj⟩ := decodeSeq_idle hd
          exact absurd ⟨index_eq_zero hj, hg⟩ hidle
        | invalidTransaction | illegalCommand | unreachableWord => rfl
    rw [step, hf]

/-! ### The hardwired program (R98) -/

/-- `advance` as numbers: the next index of the stage, or index 0 of the next stage. -/
theorem Engine.advance_sequencer (e : Engine) (g n : BitVec 4) {j : Index} {last : Nat}
    (hl : last < 128) (hj : j.toNat ≤ last) :
    let e' := e.advance g j (BitVec.ofNat 7 last) n
    (e'.STG, e'.J.toNat, e'.BI.toNat) =
      if j.toNat < last then (g, j.toNat + 1, e.BI.toNat) else (n, 0, e.BI.toNat) := by
  intro e'
  have he : e' = _ := Engine.advance_spec e g n j hl
  by_cases h : j.toNat < last
  · have hne : j.toNat ≠ last := by omega
    simp only [he, if_neg hne, if_pos h, BitVec.toNat_ofNat]
    rw [Nat.mod_eq_of_lt (by omega)]
  · have heq : j.toNat = last := by omega
    simp [he, heq]

/-- The engine's turn moves the sequencer to the successor of its control word. -/
theorem Engine.micro_successor {e : Engine} (h : e.SeqLegal) :
    (e.micro.STG, e.micro.J.toNat, e.micro.BI.toNat) = e.successor := by
  obtain ⟨hs, hj, hm⟩ | ⟨hs, hj, hm⟩ | ⟨hs, -, hj, hm⟩ | ⟨hs, -, hm⟩ | ⟨hs, hj, hm⟩ |
    ⟨hs, -, hm⟩ | ⟨hs, hj, hm⟩ | ⟨hs, -, hm⟩ := micro_spec h <;> rw [hm]
  · exact (advance_sequencer _ _ _ (by decide) hj).trans (by simp [Engine.successor, hs])
  · have hlt : e.J.toNat < 79 := by omega
    simp [Engine.copyWord, Engine.successor, hs, hlt]
    omega
  · exact (advance_sequencer _ _ _ (by decide) hj).trans (by simp [Engine.successor, hs])
  · simp [Engine.loadWorking, Engine.successor, hs]
  · exact (advance_sequencer _ _ _ (by decide) hj).trans (by simp [Engine.successor, hs])
  · have hn := e.NBLK.isLt
    by_cases hlast : e.BI.toNat + 1 < e.NBLK.toNat
    · simp [foldState_next hlast, Engine.successor, hs, hlast]
      omega
    · simp [foldState_last hlast, Engine.successor, hs, hlast]
  · exact (advance_sequencer _ _ _ (by decide) hj).trans (by simp [Engine.successor, hs])
  · obtain hs | hs | hs := hs <;> simp [Engine.successor, hs]

/-- Settles O42: the engine's turn is `Engine.micro`, which moves to the successor and keeps the input. -/
theorem sequencerFollowsProgram : Obligations.SequencerFollowsProgram := by
  intro s h _ ht
  obtain ⟨hl, -⟩ := h
  obtain ⟨hlen, hM, hnblk, -⟩ := s.engine.micro_keepsInput
  exact ⟨_, step_engine ht hl, Engine.micro_successor hl, hnblk, hlen, hM⟩

/-! ### How long a computation takes (R246, R247) -/

/-- The engine's turn outside BUSY changes nothing. -/
theorem Engine.micro_of_not_busy {e : Engine} (h : e.SeqLegal) (hb : e.isBusy = false) :
    e.micro = e := by
  have hq : e.STG = Stage.idle ∨ e.STG = Stage.done ∨ e.STG = Stage.fault := by
    obtain hs | hbusy | hs := h.situation
    · exact .inl hs
    · exact absurd (hb.symm.trans hbusy) (by simp)
    · exact .inr hs
  rw [Engine.micro, decodeSeq_quiescent hq]
  split_ifs <;> rfl

/-- A busy engine's turn leaves one micro-operation fewer: the index rises within a stage, and the first
index of the next stage (or block) has one fewer left than the last index of this one. -/
theorem Engine.stepsLeft_micro {e : Engine} (h : e.SeqLegal) (hb : e.isBusy = true) :
    e.micro.stepsLeft + 1 = e.stepsLeft := by
  have hsucc := micro_successor h
  obtain ⟨-, -, hn, -⟩ := e.micro_keepsInput
  obtain ⟨hs, hj, -⟩ | ⟨hs, hj, -⟩ | ⟨hs, -, hj, -⟩ | ⟨hs, -⟩ | ⟨hs, hj, -⟩ | ⟨hs, -⟩ |
    ⟨hs, hj, -⟩ | ⟨hs, -⟩ := micro_spec h
  · by_cases hlt : e.J.toNat < 15 <;> simp [Engine.successor, hs, hlt] at hsucc <;>
      simp [Engine.stepsLeft, hs, hsucc, hn] <;> omega
  · have hlt : e.J.toNat < 79 := by omega
    simp [Engine.successor, hs, hlt] at hsucc
    simp [Engine.stepsLeft, hs, hsucc, hn]
    omega
  · by_cases hlt : e.J.toNat < 79 <;> simp [Engine.successor, hs, hlt] at hsucc <;>
      simp [Engine.stepsLeft, hs, hsucc, hn] <;> omega
  · simp [Engine.successor, hs] at hsucc
    simp [Engine.stepsLeft, hs, hsucc, hn]
    omega
  · by_cases hlt : e.J.toNat < 79 <;> simp [Engine.successor, hs, hlt] at hsucc <;>
      simp [Engine.stepsLeft, hs, hsucc, hn] <;> omega
  · by_cases hlt : e.BI.toNat + 1 < e.NBLK.toNat <;> simp [Engine.successor, hs, hlt] at hsucc <;>
      simp [Engine.stepsLeft, hs, hsucc, hn] <;> omega
  · by_cases hlt : e.J.toNat < 4 <;> simp [Engine.successor, hs, hlt] at hsucc <;>
      simp [Engine.stepsLeft, hs, hsucc] <;> omega
  · obtain hs | hs | hs := hs <;> simp [Engine.isBusy, hs] at hb

/-- No micro-operation is left exactly when the engine is not BUSY. -/
theorem Engine.stepsLeft_eq_zero_iff {e : Engine} (h : e.SeqLegal) :
    e.stepsLeft = 0 ↔ e.isBusy = false := by
  cases hb : e.isBusy with
  | true =>
    have := stepsLeft_micro h hb
    simp
    omega
  | false =>
    obtain hs | hb' | hs | hs := h.situation
    · simp [Engine.stepsLeft, hs]
    · exact absurd (hb.symm.trans hb') (by simp)
    · simp [Engine.stepsLeft, hs]
    · simp [Engine.stepsLeft, hs]

/-- `n` turns of the engine leave `n` micro-operations fewer, none when fewer were left. -/
theorem Engine.stepsLeft_iterate {e : Engine} (h : e.SeqLegal) (n : Nat) :
    (micro^[n] e).stepsLeft = e.stepsLeft - n := by
  induction n generalizing e with
  | zero => rfl
  | succ n ih =>
    rw [Function.iterate_succ_apply, ih (micro_seqLegal h)]
    cases hb : e.isBusy with
    | true =>
      have := stepsLeft_micro h hb
      omega
    | false =>
      rw [micro_of_not_busy h hb, (stepsLeft_eq_zero_iff h).mpr hb, Nat.zero_sub, Nat.zero_sub]

/-! ### Harmless turns (R247, R248) -/

/-- A harmless turn has a next state: the engine's own turn moves the engine, the host's does not. -/
theorem step_harmless {s : State} {x : Turn} (ht : s.turn = x) (hx : x.harmless = true)
    (hl : s.engine.SeqLegal) :
    ∃ t, step s = .next t ∧ t.engine = Engine.micro^[[x].count .engine] s.engine ∧
      t.turns = s.turns.tail := by
  cases x with
  | host w => exact harmlessTurnsDoNotDisturb s w ht hx
  | engine => exact ⟨_, step_engine ht hl, rfl, rfl⟩
  | reset => cases hx

/-- A run of harmless turns ends with every turn taken and the engine moved by its own turns. -/
theorem run_harmless {ts : List Turn} (hh : ∀ t ∈ ts, t.harmless = true) {s : State}
    (ht : s.turns = ts) (hl : s.engine.SeqLegal) :
    ∃ t, Sys2Proof.core.run ts.length s = .next t ∧
      t.engine = Engine.micro^[ts.count .engine] s.engine ∧ t.turns = [] := by
  induction ts generalizing s with
  | nil => exact ⟨s, rfl, rfl, ht⟩
  | cons x ts ih =>
    obtain ⟨hx, hts⟩ := List.forall_mem_cons.mp hh
    obtain ⟨t, hstep, he, hturns⟩ := step_harmless (by simp [State.turn, ht]) hx hl
    have hl' : t.engine.SeqLegal := by
      rw [he]
      exact Function.Iterate.rec Engine.SeqLegal hl (fun _ => Engine.micro_seqLegal) _
    obtain ⟨u, hrun, hu, hturns'⟩ := ih hts (by rw [hturns, ht]; rfl) hl'
    have hs : Sys2Proof.core.step s = .next t := hstep
    refine ⟨u, ?_, ?_, hturns'⟩
    · simp only [List.length_cons, Host.Core.run, hs]
      exact hrun
    · have hcount : (x :: ts).count .engine = ts.count .engine + [x].count .engine :=
        (List.count_append (l₁ := [x])).trans (Nat.add_comm _ _)
      rw [hu, he, hcount, Function.iterate_add_apply]

/-- Turns played before a poll, all harmless. -/
theorem play_harmless {g : List Turn} (hh : ∀ t ∈ g, t.harmless = true) {s : State}
    (hl : s.engine.SeqLegal) :
    ∃ t, play g s = .next t ∧ t.engine = Engine.micro^[g.count .engine] s.engine := by
  obtain ⟨t, hrun, he, -⟩ := run_harmless hh (s := s.withTurns g) rfl hl
  exact ⟨t, hrun, he⟩

/-! ### `WAIT` (R102, R128) -/

/-- A computation under way or just ended, on the input that `e₀` holds. -/
def Engine.ComputesInputOf (e₀ e : Engine) : Prop :=
  e.Inv ∧ (e.isBusy = true ∨ e.STG = Stage.done) ∧ e.LEN = e₀.LEN ∧ e.M = e₀.M

/-- The successor of a busy control word is in stage 1 to 7. -/
theorem Engine.successor_stage {e : Engine} (hb : e.isBusy = true) :
    1 ≤ e.successor.1.toNat ∧ e.successor.1.toNat ≤ 7 := by
  obtain hs | hs | hs | hs | hs | hs := busy_stage hb <;>
    simp [Engine.successor, hs, apply_ite Prod.fst] <;> split <;> simp

/-- The engine's turn does not leave the computation: the stage after a busy one is busy or DONE. -/
theorem Engine.ComputesInputOf.micro {e₀ e : Engine} (h : e₀.ComputesInputOf e) :
    e₀.ComputesInputOf e.micro := by
  obtain ⟨hinv, hs, hlen, hM⟩ := h
  obtain ⟨hl, -⟩ := id hinv
  obtain ⟨hlen', hM', -⟩ := e.micro_keepsInput
  refine ⟨micro_inv hinv, ?_, hlen'.trans hlen, hM'.trans hM⟩
  cases hb : e.isBusy with
  | true =>
    have hrange := successor_stage hb
    rw [← micro_successor hl] at hrange
    by_cases h7 : e.micro.STG.toNat ≤ 6
    · exact .inl ((isBusy_iff _).mpr ⟨hrange.1, h7⟩)
    · exact .inr (BitVec.eq_of_toNat_eq (Nat.le_antisymm hrange.2 (Nat.lt_of_not_le h7)))
  | false =>
    rw [micro_of_not_busy hl hb, hb]
    exact .inr (hs.resolve_left (by simp [hb]))

theorem Engine.computesInputOf_iterate {e : Engine} (h : e.Inv) (hb : e.isBusy = true) (n : Nat) :
    e.ComputesInputOf (micro^[n] e) :=
  Function.Iterate.rec e.ComputesInputOf ⟨h, .inl hb, rfl, rfl⟩ (fun _ => ComputesInputOf.micro) n

/-- In DONE under the invariant `STATUS` is 2 (`10_state.md` R40). -/
theorem Engine.Inv.status_done {e : Engine} (h : e.Inv) (hs : e.STG = Stage.done) :
    e.status = 0x00000002#32 := by
  apply BitVec.eq_of_toNat_eq
  rw [toNat_status_done hs, h.ecode_zero (by simp [hs])]
  rfl

/-- Whatever `WAIT` returns was read last, with the engine not BUSY. -/
theorem wait_returns {gaps : List (List Turn)} {s u : State} {x : Word}
    (h : wait gaps s = some (u, x)) :
    u.rdata = some x ∧ x = u.engine.status ∧ u.engine.isBusy = false := by
  induction gaps generalizing s with
  | nil => cases h
  | cons g gs ih =>
    cases hp : poll g s with
    | none => simp [wait, hp] at h
    | some p =>
      obtain ⟨t, ht, -⟩ := poll_some (u := p.1) (x := p.2) hp
      rw [wait_of_play ht] at h
      split at h
      · exact ih h
      · rename_i hb
        obtain ⟨rfl, rfl⟩ := Prod.mk.inj (Option.some.inj h)
        exact ⟨rfl, rfl, Bool.eq_false_of_not_eq_true hb⟩

/-- `WAIT` among harmless turns: not ended while fewer engine turns came than micro-operations were
left, ended in DONE once that many came. -/
theorem wait_harmless {gaps : List (List Turn)} (hh : ∀ g ∈ gaps, ∀ t ∈ g, t.harmless = true)
    {s : State} (h : s.engine.Inv) (hb : s.engine.isBusy = true) :
    (gaps.flatten.count .engine < s.engine.stepsLeft → wait gaps s = none) ∧
    (s.engine.stepsLeft ≤ gaps.flatten.count .engine →
      ∃ u, wait gaps s = some (u, 0x00000002#32) ∧ u.engine.STG = Stage.done ∧
        u.engine.LEN = s.engine.LEN ∧ u.engine.M = s.engine.M) := by
  induction gaps generalizing s with
  | nil =>
    refine ⟨fun _ => rfl, fun hle => ?_⟩
    obtain ⟨hl, -⟩ := h
    have := Engine.stepsLeft_micro hl hb
    simp at hle
    omega
  | cons g gs ih =>
    obtain ⟨hg, hgs⟩ := List.forall_mem_cons.mp hh
    obtain ⟨hl, -⟩ := id h
    obtain ⟨t, hp, he⟩ := play_harmless hg hl
    have hleft := Engine.stepsLeft_iterate hl (g.count .engine)
    have hcomp := Engine.computesInputOf_iterate h hb (g.count .engine)
    rw [← he] at hleft hcomp
    obtain ⟨hinv, hs, hlen, hM⟩ := hcomp
    rw [wait_of_play hp, List.flatten_cons, List.count_append]
    cases hbt : t.engine.isBusy with
    | true =>
      obtain ⟨hnone, hsome⟩ :=
        ih hgs (s := { t with rdata := some t.engine.status, turns := [] }) hinv hbt
      simp only [hleft, hlen, hM] at hnone hsome
      exact ⟨fun hlt => hnone (by omega), fun hle => hsome (by omega)⟩
    | false =>
      obtain ⟨hlt, -⟩ := id hinv
      have hzero := (Engine.stepsLeft_eq_zero_iff hlt).mpr hbt
      have hdone := hs.resolve_left (by simp [hbt])
      rw [hinv.status_done hdone]
      exact ⟨fun hlt => by omega, fun _ => ⟨_, rfl, hdone, hlen, hM⟩⟩

/-- Settles O51: what `WAIT` returns, its first round, and its rounds among harmless turns. -/
theorem waitEndsWhenNotBusy : Obligations.WaitEndsWhenNotBusy := by
  refine ⟨fun s u gaps x h => ?_, fun s t g gaps hp hb => ?_,
    fun s gaps h hb hh => wait_harmless hh h hb⟩
  · obtain ⟨hr, rfl, hb⟩ := wait_returns h
    rw [Engine.status_bit0, ← Engine.isBusy_iff]
    exact ⟨hr, hb, by simp [hb]⟩
  · rw [← Engine.isBusy_iff] at hb
    rw [wait_of_play hp, if_neg hb]
    exact ⟨_, rfl, rfl⟩

end Sys2Proof.Machine

/-! PROOFS. The host's transactions and commands (`40_host_commands.md`): what a read returns, what a
write stores, and the effect of a command word by stage. -/

namespace Sys2Proof.Machine

/-! ### Registers by address (`10_state.md` R38) -/

/-- An address with the number of a register names that register. -/
theorem ofAddr_of_toNat {a : Addr} {r : Reg} (hr : r.wf = true) (h : a.toNat = r.addr.toNat) :
    Reg.ofAddr a = r := by
  rw [BitVec.eq_of_toNat_eq h, Reg.ofAddr_addr hr]

/-- A register's number determines the register an address names. -/
theorem ofAddr_eq_iff {a : Addr} {r : Reg} (hr : r.wf = true) :
    Reg.ofAddr a = r ↔ a.toNat = r.addr.toNat :=
  ⟨fun h => by rw [← h, Reg.addr_ofAddr], ofAddr_of_toNat hr⟩

theorem toNat_addr_h (i : Fin 5) : (Reg.h i).addr.toNat = 4 + i.val := by
  revert i; decide

theorem toNat_addr_digw (i : Fin 10) : (Reg.digw i).addr.toNat = 16 + i.val := by
  revert i; decide

/-! ### Reads (R120, R122) -/

theorem exec_rd (r : Reg) (s : State) :
    exec (.rd r) s = .next (s.answer (s.engine.readReg r)) := rfl

/-- A read returns the register's value where it has one. -/
theorem State.answer_rdata_of_some {s : State} {v : Option Word} {x y : Word}
    (hx : (s.answer v).rdata = some x) (hv : v = some y) : x = y := by
  subst hv
  exact (Option.some.inj hx).symm

theorem Engine.toNat_isFault (e : Engine) : e.isFault.toNat = if e.STG.toNat = 15 then 1 else 0 := by
  rw [Engine.isFault]
  generalize e.STG = g
  revert g
  decide

theorem Engine.toNat_isDone (e : Engine) : e.isDone.toNat = if e.STG.toNat = 7 then 1 else 0 := by
  rw [Engine.isDone]
  generalize e.STG = g
  revert g
  decide

theorem Engine.toNat_isBusy (e : Engine) :
    e.isBusy.toNat = if 1 ≤ e.STG.toNat ∧ e.STG.toNat ≤ 6 then 1 else 0 := by
  rw [Engine.isBusy]
  generalize e.STG = g
  revert g
  decide

/-- In DONE `Hi` is shown (R120, `10_state.md` R42). -/
theorem Engine.readReg_h {e : Engine} (hs : e.STG = Stage.done) (i : Fin 5) :
    e.readReg (.h i) = some (rget e.H i.val) := if_pos ((isDone_iff e).mpr hs)

/-- In DONE `DIGWi` is shown (R120, `10_state.md` R43). -/
theorem Engine.readReg_digw {e : Engine} (hs : e.STG = Stage.done) (i : Fin 10) :
    e.readReg (.digw i) = some (e.digestWord i.val) := if_pos ((isDone_iff e).mpr hs)

/-- Settles O11: the address's range names the register, and the register has the value R120 gives. -/
theorem readRegisterReturns : Obligations.ReadRegisterReturns := by
  intro s a
  obtain ⟨x, hx⟩ := Option.isSome_iff_exists.mp
    (s.answer_rdata_isSome (s.engine.readReg (Reg.ofAddr a)))
  have hread {r : Reg} {y : Word} (hr : r.wf = true) (ha : a.toNat = r.addr.toNat)
      (hv : s.engine.readReg r = some y) : x = y :=
    State.answer_rdata_of_some hx (ofAddr_of_toNat hr ha ▸ hv)
  refine ⟨_, x, exec_rd _ s, hx, s.answer_engine _, s.answer_turns _, fun ha => ?_, fun ha => ?_,
    fun ha => ?_, fun k hk ha hs => ?_, fun k hk ha hs => ?_, fun ha => ?_⟩
  · exact hread (r := .cmd) rfl ha rfl
  · rw [hread (r := .status) rfl ha rfl, Engine.toNat_status, Engine.toNat_isFault,
      Engine.toNat_isDone, Engine.toNat_isBusy]
    simp only [mul_ite, mul_one, mul_zero]
  · exact hread (r := .len) rfl ha rfl
  · exact hread (r := .h ⟨k, hk⟩) rfl (ha.trans (toNat_addr_h ⟨k, hk⟩).symm)
      (Engine.readReg_h (BitVec.eq_of_toNat_eq hs) _)
  · rw [hread (r := .digw ⟨k, hk⟩) rfl (ha.trans (toNat_addr_digw ⟨k, hk⟩).symm)
      (Engine.readReg_digw (BitVec.eq_of_toNat_eq hs) _)]
    exact toNat_wordOfBytes _ _ _ _
  · rw [ofAddr_reserved ha] at hx
    exact State.answer_rdata_of_some hx rfl

/-- Settles O15: `RDM` answers with the byte as a number, or 0 where no byte exists. -/
theorem readMessageByteReturns : Obligations.ReadMessageByteReturns := by
  intro s a
  rw [exec_rdm, Engine.readMessage]
  simp only [BitVec.ofNat_toNat]
  rfl

/-! ### Writes (R121, R123) -/

theorem exec_wr (r : Reg) (v : Word) (s : State) :
    exec (.wr r v) s = .next (s.hostWrite (·.writeReg r v)) := rfl

/-- A write of a register that is neither `CMD` nor `LEN` is ignored (R121). -/
theorem Engine.writeReg_ignored {r : Reg} (hc : r ≠ .cmd) (hl : r ≠ .len) (e : Engine) (v : Word) :
    e.writeReg r v = e := by
  obtain ⟨hr, -⟩ | ⟨hr, -⟩ | ⟨hr, -⟩ | h := e.writeReg_cases r v
  · exact absurd hr hc
  · exact absurd hr hl
  · exact absurd hr hl
  · exact h

/-- Settles O13: only the number 2 names `LEN`, and outside `CMD` only `LEN` has a write. -/
theorem writeRegisterStoresLenOnly : Obligations.WriteRegisterStoresLenOnly := by
  intro s a v ha
  rw [exec_wr, State.hostWrite]
  by_cases hl : a.toNat = 2
  · rw [if_pos hl, ofAddr_of_toNat (r := .len) rfl hl]
    simp only [← Engine.isBusy_iff]
    rfl
  · have hcmd : Reg.ofAddr a ≠ .cmd := (ofAddr_eq_iff rfl).not.mpr ha
    have hlen : Reg.ofAddr a ≠ .len := (ofAddr_eq_iff rfl).not.mpr hl
    rw [if_neg hl, Engine.writeReg_ignored hcmd hlen]

/-- Settles O16: a refused write is fault entry, and a performed one is a write of `M`. -/
theorem writeMessageByteStores : Obligations.WriteMessageByteStores := by
  intro s a b hm
  refine ⟨_, exec_wrm a b s, rfl, rfl, rfl, ?_⟩
  rw [← Engine.isBusy_iff, State.hostWrite_engine]
  obtain ⟨hb, hw⟩ | ⟨hb, hw⟩ := s.engine.writeMessage_cases a.toNat b <;> rw [hw, hb]
  · exact ⟨fun _ => rfl, fun h => absurd rfl h⟩
  · exact ⟨nofun, fun _ => ⟨rfl, Memory.write_size _ _ _, fun x => Memory.byteAt_write hm _ x b⟩⟩

/-! ### Commands (R124 to R127) -/

/-- `command(v)` on the number of the word, by stage (R124). -/
theorem Engine.command_eq (e : Engine) (v : Word) :
    e.command v =
      if e.isFault then if v.toNat = 2 then e.clear else e
      else if 3 ≤ v.toNat then e.raise .illegalCommand
      else if v.toNat = 0 then e
      else if e.isBusy then e.raise .busyViolation
      else if v.toNat = 2 then e.clear
      else e.start := by
  have hv (u : Word) : v = u ↔ v.toNat = u.toNat := BitVec.toNat_inj.symm
  cases hf : e.isFault with
  | true =>
    rw [command_fault hf, if_pos rfl]
    simp only [hv]
    rfl
  | false =>
    rw [if_neg (by simp)]
    by_cases h₀ : v = 0#32
    · simp [h₀]
    by_cases h₁ : v = 1#32
    · simp [h₁, command_start, hf]
    by_cases h₂ : v = 2#32
    · simp [h₂, command_clr]
    have h₃ : 3 ≤ v.toNat := by
      simp only [hv, BitVec.toNat_ofNat] at h₀ h₁ h₂
      omega
    rw [command_illegal hf h₀ h₁ h₂, if_pos h₃]

/-- Settles O18: the dispatch by number, with each effect as the registers it writes. -/
theorem commandWordDispatch : Obligations.CommandWordDispatch := by
  intro s v e
  have hf : e.isFault = true ↔ e.STG.toNat = 15 :=
    (Engine.isFault_iff e).trans BitVec.toNat_inj.symm
  have hw : exec (.wr .cmd v) s = .next (s.hostWrite (·.command v)) := rfl
  rw [hw, State.hostWrite, Engine.command_eq]
  simp only [← hf, ← Engine.isBusy_iff]
  rfl

/-- In IDLE and DONE, where `START` is accepted, the engine is neither BUSY nor in FAULT (R32, R37). -/
theorem Engine.ready_not_busy {e : Engine} (hs : e.STG = Stage.idle ∨ e.STG = Stage.done) :
    e.isBusy = false ∧ e.isFault = false := by
  obtain hs | hs := hs <;> simp [Engine.isFault, Engine.isBusy, hs]

theorem exec_nop (s : State) : exec .nop s = .next (s.hostWrite (·.command 0x00000000#32)) := rfl

theorem exec_start (s : State) :
    exec .start s = .next (s.hostWrite (·.command 0x00000001#32)) := rfl

theorem exec_clr (s : State) :
    exec .clr s = .next (s.hostWrite (·.command 0x00000002#32)) := rfl

/-- Settles O19: `NOP` changes no register in any stage. -/
theorem nopChangesNothing : Obligations.NopChangesNothing := by
  intro s
  rw [exec_nop, State.hostWrite, Engine.command_nop]

/-- Settles O20: outside BUSY and FAULT `START` is `Engine.start`, and the block count fits (R30). -/
theorem startAccepted : Obligations.StartAccepted := by
  intro s hs h₁ h₂
  refine ⟨blockCount s.engine.LEN, blockCount_toNat h₁, ?_⟩
  obtain ⟨hb, hf⟩ := Engine.ready_not_busy hs
  rw [exec_start, State.hostWrite, Engine.command_start]
  simp only [hb, hf, Engine.start_accepted h₁ h₂]
  rfl

/-- In IDLE `CLR` writes what the registers hold: the index and the cause are 0 (R127, R35, R36). -/
theorem Engine.Inv.clear_of_idle {e : Engine} (h : e.Inv) (hs : e.STG = Stage.idle) :
    e.clear = e := by
  have hc := h.ecode_zero (by simp [hs])
  obtain ⟨hl, -⟩ := h
  have hj : e.J = 0#7 := by
    obtain h | h | h | h | h | h | h | h | h := hl
    · exact index_eq_zero h.2
    all_goals simp [hs] at h
  rw [Engine.clear, Engine.seq, ← hc, ← hs, ← hj]

/-- Settles O22: outside BUSY `CLR` is `Engine.clear`, which in IDLE writes what the registers hold. -/
theorem clrReturnsToIdle : Obligations.ClrReturnsToIdle := by
  have hclr {s : State} (hb : s.engine.isBusy = false) :
      exec .clr s = .next (s.hostWrite Engine.clear) := by
    rw [exec_clr, State.hostWrite, Engine.command_clr, hb]
    rfl
  refine ⟨fun s hs => ?_, fun s h hs => ?_⟩
  · have hb : s.engine.isBusy = false := by
      obtain hs | hs | hs := hs <;> simp [Engine.isBusy, hs]
    rw [hclr hb]
    rfl
  · rw [hclr (Engine.idle_not_busy hs), State.hostWrite, h.clear_of_idle hs]

end Sys2Proof.Machine

/-! PROOFS. The computation is the reference function (`00_scope.md` R16): what the registers hold at
each control word of a computation, kept by every turn of the engine. -/

namespace Sys2Proof.Machine

/-! ### Register files filled from the front -/

/-- The elements of a register file below `k` are those of `f`. -/
def AgreesBelow {w n : Nat} (v : Vector (BitVec w) n) (f : Nat → BitVec w) (k : Nat) : Prop :=
  ∀ i, i < k → rget v i = f i

theorem agreesBelow_zero {w n : Nat} (v : Vector (BitVec w) n) (f : Nat → BitVec w) :
    AgreesBelow v f 0 := fun _ hi => absurd hi (Nat.not_lt_zero _)

/-- Writing the next element extends the agreement by one. -/
theorem AgreesBelow.rset {w n k : Nat} {v : Vector (BitVec w) n} {f : Nat → BitVec w}
    (h : AgreesBelow v f k) (hk : k < n) {x : BitVec w} (hx : x = f k) :
    AgreesBelow (rset v k x) f (k + 1) := by
  intro i hi
  rw [rget_rset]
  split
  · rename_i hki
    rw [hx, hki.1]
  · exact h i (by omega)

/-! ### The padded stream (`41_padding_segmentation.md` R142) -/

@[simp] theorem Engine.message_length (e : Engine) : e.message.length = e.LEN.toNat := by
  simp [Engine.message]

theorem Engine.message_getElem (e : Engine) {i : Nat} (h : i < e.message.length) :
    e.message[i] = e.M.byteAt i := by
  simp [Engine.message]

/-- The message is a function of the input, which micro-operations keep. -/
theorem Engine.message_congr {e e' : Engine} (hlen : e'.LEN = e.LEN) (hM : e'.M = e.M) :
    e'.message = e.message := by
  rw [Engine.message, Engine.message, hlen, hM]

theorem Engine.blocks_message (e : Engine) :
    Reference.blocks e.message = (e.LEN.toNat + 72) / 64 := by
  rw [Reference.blocks, message_length]

/-- Below its end the engine's stream is the reference padding of its message. -/
theorem Engine.paddedByte_eq_pad {e : Engine} (hn : e.NBLK.toNat = (e.LEN.toNat + 72) / 64) {i : Nat}
    (hi : i < 64 * e.NBLK.toNat) : e.paddedByte i = Reference.pad e.message i := by
  have hb : Reference.blocks e.message = e.NBLK.toNat := by rw [blocks_message, hn]
  simp only [Engine.paddedByte, Reference.pad, hb, message_length, message_getElem,
    if_neg (Nat.not_le.mpr hi), dite_eq_ite]

/-- The words of the engine's stream are the reference words (R146). -/
theorem Engine.paddedWord_eq_word {e : Engine} (hn : e.NBLK.toNat = (e.LEN.toNat + 72) / 64)
    {b t : Nat} (hb : b < e.NBLK.toNat) (ht : t < 16) :
    e.paddedWord b t = Reference.word e.message b t := by
  rw [Engine.paddedWord, Reference.word, paddedByte_eq_pad hn (by omega),
    paddedByte_eq_pad hn (by omega), paddedByte_eq_pad hn (by omega),
    paddedByte_eq_pad hn (by omega)]

/-! ### The reference schedule (`42_schedule_expansion.md` R162) -/

namespace Reference

@[simp] theorem schedWords_length (blk : Nat → Word) (n : Nat) : (schedWords blk n).length = n := by
  induction n with
  | zero => rfl
  | succ n ih => simp [schedWords, ih]

/-- Later words do not change earlier ones. -/
theorem schedWords_getD_add (blk : Nat → Word) {k n : Nat} (h : k < n) (d : Nat) :
    (schedWords blk (n + d)).getD k 0#32 = (schedWords blk n).getD k 0#32 := by
  induction d with
  | zero => rfl
  | succ d ih =>
    rw [← ih, ← Nat.add_assoc, schedWords, List.getD_append _ _ _ _ (by simp; omega)]

/-- The words of the schedule by their recurrence. -/
theorem sched_getD (blk : Nat → Word) {j : Nat} (hj : j < 80) :
    (sched blk).getD j 0#32 =
      if j < 16 then blk j
      else scheduleMix ((sched blk).getD (j - 3) 0#32) ((sched blk).getD (j - 8) 0#32)
        ((sched blk).getD (j - 14) 0#32) ((sched blk).getD (j - 16) 0#32) := by
  have hprev {k n : Nat} (hk : k < n) (hn : n ≤ 80) :
      (sched blk).getD k 0#32 = (schedWords blk n).getD k 0#32 := by
    have := schedWords_getD_add blk hk (80 - n)
    rwa [Nat.add_sub_cancel' hn] at this
  rw [hprev (Nat.lt_succ_self j) hj, schedWords,
    List.getD_append_right _ _ _ _ (by simp), schedWords_length, Nat.sub_self, List.getD_cons_zero]
  split
  · rfl
  · rw [hprev (k := j - 3) (n := j) (by omega) (by omega),
      hprev (k := j - 8) (n := j) (by omega) (by omega),
      hprev (k := j - 14) (n := j) (by omega) (by omega),
      hprev (k := j - 16) (n := j) (by omega) (by omega)]

/-! ### The reference rounds, blocks and characters -/

theorem rounds_succ (w : List Word) (x : Work) (n : Nat) :
    rounds w x (n + 1) = round w (rounds w x n) n := by
  simp [rounds, List.range_succ]

theorem afterBlocks_succ (m : List Byte) (n : Nat) :
    afterBlocks m (n + 1) = compress (afterBlocks m n) (sched (word m n)) := by
  simp [afterBlocks, List.range_succ]

/-- Character `c` of a list of words spelled by `hex8`: eight characters a word. -/
theorem flatMap_hex8_getD (l : List Word) {c : Nat} (h : c < 8 * l.length) :
    (l.flatMap hex8).getD c 0#8 = hexchar (nibble (l.getD (c / 8) 0#32) (c % 8)) := by
  induction l generalizing c with
  | nil => simp at h
  | cons x l ih =>
    have hlen : (hex8 x).length = 8 := by simp [hex8]
    rw [List.flatMap_cons]
    by_cases hc : c < 8
    · rw [List.getD_append _ _ _ _ (by omega), Nat.div_eq_of_lt hc, Nat.mod_eq_of_lt hc]
      simp [hex8, hc]
    · obtain ⟨d, rfl⟩ : ∃ d, c = d + 8 := ⟨c - 8, by omega⟩
      rw [List.getD_append_right _ _ _ _ (by omega), hlen, Nat.add_sub_cancel,
        ih (by simp at h; omega), Nat.add_div_right _ (by decide), Nat.add_mod_right,
        List.getD_cons_succ]

end Reference

/-! ### The micro-operations as steps of the reference function -/

/-- `LDW` loads the next word of the block (R147). -/
theorem Engine.loadWord_block {e : Engine} (hn : e.NBLK.toNat = (e.LEN.toNat + 72) / 64)
    (hb : e.BI.toNat < e.NBLK.toNat) {t : Index} (ht : t.toNat ≤ 15)
    (h : AgreesBelow e.BLK (Reference.word e.message e.BI.toNat) t.toNat) :
    AgreesBelow (e.loadWord t).BLK (Reference.word e.message e.BI.toNat) (t.toNat + 1) := by
  simpa [Engine.loadWord] using h.rset (by omega) (paddedWord_eq_word hn hb (by omega))

/-- The schedule of a block as a function of the index. -/
def schedWord (blk : Nat → Word) (j : Nat) : Word := (Reference.sched blk).getD j 0#32

/-- The first sixteen words are the block's (R161). -/
theorem schedWord_copied (blk : Nat → Word) {j : Nat} (h : j < 16) : schedWord blk j = blk j :=
  (Reference.sched_getD blk (by omega)).trans (if_pos h)

/-- The other words are derived from four earlier ones (R162). -/
theorem schedWord_derived (blk : Nat → Word) {j : Nat} (hlo : 16 ≤ j) (hhi : j < 80) :
    schedWord blk j = scheduleMix (schedWord blk (j - 3)) (schedWord blk (j - 8))
      (schedWord blk (j - 14)) (schedWord blk (j - 16)) :=
  (Reference.sched_getD blk hhi).trans (if_neg (by omega))

/-- `CPW` copies the next word of the schedule (R163). -/
theorem Engine.copyWord_schedule {e : Engine} {blk : Nat → Word} (hblk : AgreesBelow e.BLK blk 16)
    {j : Index} (hj : j.toNat ≤ 15) (h : AgreesBelow e.W (schedWord blk) j.toNat) :
    AgreesBelow (e.copyWord j).W (schedWord blk) (j.toNat + 1) :=
  h.rset (by omega) ((hblk _ (by omega)).trans (schedWord_copied blk (by omega)).symm)

/-- `XW` derives the next word of the schedule (R162, R164). -/
theorem Engine.deriveWord_schedule {e : Engine} {blk : Nat → Word} {j : Index} (hlo : 16 ≤ j.toNat)
    (hhi : j.toNat ≤ 79) (h : AgreesBelow e.W (schedWord blk) j.toNat) :
    AgreesBelow (e.deriveWord j).W (schedWord blk) (j.toNat + 1) := by
  have hx : e.derivedWord j.toNat = schedWord blk j.toNat := by
    rw [schedWord_derived blk hlo (by omega), Engine.derivedWord, h _ (by omega), h _ (by omega),
      h _ (by omega), h _ (by omega)]
  simpa [Engine.deriveWord] using h.rset (by omega) hx

/-- A round operation is the reference round of its index (R178). -/
theorem Engine.roundStep_work {e : Engine} {w : List Word} {j : Index}
    (hw : rget e.W j.toNat = w.getD j.toNat 0#32) :
    (e.roundStep (Fin.ofNat 4 (j.toNat / 20)) j).work = Reference.round w e.work j.toNat := by
  simp [Engine.work, Engine.roundStep, Reference.round, hw]

/-- The running state after `FOLD` is the compression of the block (R180). -/
theorem Engine.foldState_hash {e : Engine} {w : List Word}
    (hwork : e.work = Reference.rounds w e.hash 80) :
    e.foldState.hash = Reference.compress e.hash w := by
  rw [Reference.compress, ← hwork]
  unfold Engine.foldState
  split <;> rfl

theorem Engine.hash_words_getD (e : Engine) {i : Nat} (hi : i < 5) :
    e.hash.words.getD i 0#32 = rget e.H i := by
  interval_cases i <;> rfl

/-- `HEXW` writes the next eight characters of the running state (R192). -/
theorem Engine.encodeWord_digits {e : Engine} {j : Index} (hj : j.toNat ≤ 4)
    (h : AgreesBelow e.DIG ((e.hash.words.flatMap Reference.hex8).getD · 0#8) (8 * j.toNat)) :
    AgreesBelow (e.encodeWord j).DIG ((e.hash.words.flatMap Reference.hex8).getD · 0#8)
      (8 * (j.toNat + 1)) := by
  intro c hc
  simp only [Engine.encodeWord, advance_DIG, writeDigits_rget _ _ _ _ (show j.toNat < 5 by omega)]
  split
  · rename_i hr
    rw [Reference.flatMap_hex8_getD _ (by simp [Reference.Work.words]; omega),
      show c / 8 = j.toNat by omega, show c % 8 = c - 8 * j.toNat by omega,
      hash_words_getD _ (by omega)]
  · exact h c (by omega)

/-! ### What the registers hold during a computation -/

/-- What the engine has computed of the digest of `m`, by stage. -/
inductive Engine.Tracks (m : List Byte) (e : Engine) : Prop
  /-- The words of the block below `J` are loaded. -/
  | seg (stage : e.STG = Stage.seg) (hash : e.hash = Reference.afterBlocks m e.BI.toNat)
      (block : AgreesBelow e.BLK (Reference.word m e.BI.toNat) e.J.toNat)
  /-- The words of the schedule below `J` are built. -/
  | xpd (stage : e.STG = Stage.xpd) (hash : e.hash = Reference.afterBlocks m e.BI.toNat)
      (block : AgreesBelow e.BLK (Reference.word m e.BI.toNat) 16)
      (schedule : AgreesBelow e.W (schedWord (Reference.word m e.BI.toNat)) e.J.toNat)
  | lds (stage : e.STG = Stage.lds) (hash : e.hash = Reference.afterBlocks m e.BI.toNat)
      (schedule : AgreesBelow e.W (schedWord (Reference.word m e.BI.toNat)) 80)
  /-- The rounds below `J` are done. -/
  | rnd (stage : e.STG = Stage.rnd) (hash : e.hash = Reference.afterBlocks m e.BI.toNat)
      (schedule : AgreesBelow e.W (schedWord (Reference.word m e.BI.toNat)) 80)
      (work : e.work =
        Reference.rounds (Reference.sched (Reference.word m e.BI.toNat)) e.hash e.J.toNat)
  | fold (stage : e.STG = Stage.fold) (hash : e.hash = Reference.afterBlocks m e.BI.toNat)
      (work : e.work =
        Reference.rounds (Reference.sched (Reference.word m e.BI.toNat)) e.hash 80)
  /-- The characters of the words below `J` are written. -/
  | enc (stage : e.STG = Stage.enc) (hash : e.hash = Reference.sha1w m)
      (digits : AgreesBelow e.DIG ((Reference.sha1hex m).getD · 0#8) (8 * e.J.toNat))
  | done (stage : e.STG = Stage.done) (hash : e.hash = Reference.sha1w m)
      (digits : AgreesBelow e.DIG ((Reference.sha1hex m).getD · 0#8) 40)

theorem Engine.hash_congr {e e' : Engine} (h : e'.H = e.H) : e'.hash = e.hash := by
  rw [Engine.hash, Engine.hash, h]

/-- A turn in a stage whose index ends at `last` moves to the next index, or to the next stage. -/
theorem Engine.micro_moves {e : Engine} (hl : e.SeqLegal) {g n : BitVec 4} {last : Nat}
    (hsucc : e.successor =
      if e.J.toNat < last then (g, e.J.toNat + 1, e.BI.toNat) else (n, 0, e.BI.toNat))
    (hj : e.J.toNat ≤ last) :
    (e.micro.STG = g ∧ e.micro.J.toNat = e.J.toNat + 1 ∧ e.micro.BI.toNat = e.BI.toNat) ∨
    (e.micro.STG = n ∧ e.micro.J.toNat = 0 ∧ e.micro.BI.toNat = e.BI.toNat ∧
      e.J.toNat = last) := by
  have h := (micro_successor hl).trans hsucc
  split at h <;> simp only [Prod.mk.injEq] at h <;> obtain ⟨hs, hj', hbi⟩ := h
  · exact .inl ⟨hs, hj', hbi⟩
  · exact .inr ⟨hs, hj', hbi, by omega⟩

/-- SEG: one more word of the block, and after the last the schedule begins. -/
theorem Engine.tracks_micro_of_seg {e : Engine} (hinv : e.Inv) (hs : e.STG = Stage.seg)
    (hash : e.hash = Reference.afterBlocks e.message e.BI.toNat)
    (block : AgreesBelow e.BLK (Reference.word e.message e.BI.toNat) e.J.toNat) :
    e.micro.Tracks e.message := by
  obtain ⟨hl, -, hrun, -⟩ := hinv
  obtain ⟨-, hn, hbi, -⟩ := hrun (isBusy_of_stage hs (by decide))
  obtain ⟨hj, hm⟩ : e.J.toNat ≤ 15 ∧ e.micro = e.loadWord e.J := by simpa [hs] using micro_spec hl
  have hhash : e.micro.hash = e.hash := hash_congr (by simp [hm, Engine.loadWord])
  have hblk := loadWord_block hn hbi hj block
  rw [← hm] at hblk
  obtain ⟨hs', hj', hbi'⟩ | ⟨hs', hj', hbi', hlast⟩ := micro_moves hl (g := Stage.seg)
    (n := Stage.xpd) (last := 15) (by simp [Engine.successor, hs]) hj <;>
    rw [← hbi'] at hash hblk
  · exact .seg hs' (hhash.trans hash) (hj' ▸ hblk)
  · rw [hlast] at hblk
    exact .xpd hs' (hhash.trans hash) hblk (hj' ▸ agreesBelow_zero _ _)

/-- XPD: one more word of the schedule, copied or derived. -/
theorem Engine.tracks_micro_of_xpd {m : List Byte} {e : Engine} (hl : e.SeqLegal)
    (hs : e.STG = Stage.xpd) (hash : e.hash = Reference.afterBlocks m e.BI.toNat)
    (block : AgreesBelow e.BLK (Reference.word m e.BI.toNat) 16)
    (schedule : AgreesBelow e.W (schedWord (Reference.word m e.BI.toNat)) e.J.toNat) :
    e.micro.Tracks m := by
  have hspec : (e.J.toNat ≤ 15 ∧ e.micro = e.copyWord e.J) ∨
      (16 ≤ e.J.toNat ∧ e.J.toNat ≤ 79 ∧ e.micro = e.deriveWord e.J) := by
    simpa [hs] using micro_spec hl
  obtain ⟨hj, hhash, hblk, hsched⟩ : e.J.toNat ≤ 79 ∧ e.micro.hash = e.hash ∧
      e.micro.BLK = e.BLK ∧
      AgreesBelow e.micro.W (schedWord (Reference.word m e.BI.toNat)) (e.J.toNat + 1) := by
    obtain ⟨hj, hm⟩ | ⟨hlo, hhi, hm⟩ := hspec <;> rw [hm]
    · exact ⟨by omega, rfl, rfl, copyWord_schedule block hj schedule⟩
    · exact ⟨hhi, hash_congr (by simp [Engine.deriveWord]), by simp [Engine.deriveWord],
        deriveWord_schedule hlo hhi schedule⟩
  rw [← hblk] at block
  obtain ⟨hs', hj', hbi'⟩ | ⟨hs', -, hbi', hlast⟩ := micro_moves hl (g := Stage.xpd)
    (n := Stage.lds) (last := 79) (by simp [Engine.successor, hs]) hj <;>
    rw [← hbi'] at hash block hsched
  · exact .xpd hs' (hhash.trans hash) block (hj' ▸ hsched)
  · rw [hlast] at hsched
    exact .lds hs' (hhash.trans hash) hsched

/-- LDS: no round is done yet. -/
theorem Engine.tracks_micro_of_lds {m : List Byte} {e : Engine} (hl : e.SeqLegal)
    (hs : e.STG = Stage.lds) (hash : e.hash = Reference.afterBlocks m e.BI.toNat)
    (schedule : AgreesBelow e.W (schedWord (Reference.word m e.BI.toNat)) 80) :
    e.micro.Tracks m := by
  obtain ⟨-, hm⟩ : e.J.toNat = 0 ∧ e.micro = e.loadWorking := by simpa [hs] using micro_spec hl
  rw [hm]
  exact .rnd rfl hash schedule rfl

/-- RND: one more round, and after the last the fold. -/
theorem Engine.tracks_micro_of_rnd {m : List Byte} {e : Engine} (hl : e.SeqLegal)
    (hs : e.STG = Stage.rnd) (hash : e.hash = Reference.afterBlocks m e.BI.toNat)
    (schedule : AgreesBelow e.W (schedWord (Reference.word m e.BI.toNat)) 80)
    (work : e.work =
      Reference.rounds (Reference.sched (Reference.word m e.BI.toNat)) e.hash e.J.toNat) :
    e.micro.Tracks m := by
  obtain ⟨hj, hm⟩ : e.J.toNat ≤ 79 ∧
      e.micro = e.roundStep (Fin.ofNat 4 (e.J.toNat / 20)) e.J := by
    simpa [hs] using micro_spec hl
  have hhash : e.micro.hash = e.hash := hash_congr (by simp [hm, Engine.roundStep])
  have hW : e.micro.W = e.W := by simp [hm, Engine.roundStep]
  have hwork : e.micro.work = _ := (congrArg Engine.work hm).trans
    (roundStep_work (schedule e.J.toNat (by omega)))
  rw [work, ← Reference.rounds_succ, ← hhash] at hwork
  rw [← hW] at schedule
  obtain ⟨hs', hj', hbi'⟩ | ⟨hs', -, hbi', hlast⟩ := micro_moves hl (g := Stage.rnd)
    (n := Stage.fold) (last := 79) (by simp [Engine.successor, hs]) hj <;>
    rw [← hbi'] at hash schedule hwork
  · exact .rnd hs' (hhash.trans hash) schedule (hj' ▸ hwork)
  · rw [hlast] at hwork
    exact .fold hs' (hhash.trans hash) hwork

/-- FOLD: one more block, and after the last the digest's words. -/
theorem Engine.tracks_micro_of_fold {e : Engine} (hinv : e.Inv) (hs : e.STG = Stage.fold)
    (hash : e.hash = Reference.afterBlocks e.message e.BI.toNat)
    (work : e.work =
      Reference.rounds (Reference.sched (Reference.word e.message e.BI.toNat)) e.hash 80) :
    e.micro.Tracks e.message := by
  obtain ⟨hl, -, hrun, -⟩ := hinv
  obtain ⟨-, hn, hbi, -⟩ := hrun (isBusy_of_stage hs (by decide))
  obtain ⟨-, hm⟩ : e.J.toNat = 0 ∧ e.micro = e.foldState := by simpa [hs] using micro_spec hl
  have hsucc := micro_successor hl
  have hhash : e.micro.hash = Reference.afterBlocks e.message (e.BI.toNat + 1) := by
    rw [hm, foldState_hash work, hash, Reference.afterBlocks_succ]
  by_cases hlast : e.BI.toNat + 1 < e.NBLK.toNat <;> simp [Engine.successor, hs, hlast] at hsucc <;>
    obtain ⟨hs', hj', hbi'⟩ := hsucc
  · exact .seg hs' (hbi' ▸ hhash) (hj' ▸ agreesBelow_zero _ _)
  · have hblocks : e.BI.toNat + 1 = Reference.blocks e.message := by
      rw [blocks_message]
      omega
    refine .enc hs' ?_ ?_
    · rw [hhash, hblocks, Reference.sha1w]
    · rw [hj']
      exact agreesBelow_zero _ _

/-- ENC: eight more characters, and after the last word DONE. -/
theorem Engine.tracks_micro_of_enc {m : List Byte} {e : Engine} (hl : e.SeqLegal)
    (hs : e.STG = Stage.enc) (hash : e.hash = Reference.sha1w m)
    (digits : AgreesBelow e.DIG ((Reference.sha1hex m).getD · 0#8) (8 * e.J.toNat)) :
    e.micro.Tracks m := by
  obtain ⟨hj, hm⟩ : e.J.toNat ≤ 4 ∧ e.micro = e.encodeWord e.J := by
    simpa [hs] using micro_spec hl
  have hhash : e.micro.hash = e.hash := hash_congr (by simp [hm, Engine.encodeWord])
  rw [Reference.sha1hex, ← hash] at digits
  have hdig := encodeWord_digits hj digits
  rw [← hm, hash, ← Reference.sha1hex] at hdig
  obtain ⟨hs', hj', -⟩ | ⟨hs', -, -, hlast⟩ := micro_moves hl (g := Stage.enc)
    (n := Stage.done) (last := 4) (by simp [Engine.successor, hs]) hj
  · exact .enc hs' (hhash.trans hash) (hj' ▸ hdig)
  · rw [hlast] at hdig
    exact .done hs' (hhash.trans hash) hdig

/-- Every turn of the engine in a computation computes the next part of the digest. -/
theorem Engine.Tracks.micro {e : Engine} (h : e.Tracks e.message) (hinv : e.Inv) :
    e.micro.Tracks e.message := by
  obtain ⟨hl, -⟩ := id hinv
  cases h with
  | seg hs hash block => exact tracks_micro_of_seg hinv hs hash block
  | xpd hs hash block schedule => exact tracks_micro_of_xpd hl hs hash block schedule
  | lds hs hash schedule => exact tracks_micro_of_lds hl hs hash schedule
  | rnd hs hash schedule work => exact tracks_micro_of_rnd hl hs hash schedule work
  | fold hs hash work => exact tracks_micro_of_fold hinv hs hash work
  | enc hs hash digits => exact tracks_micro_of_enc hl hs hash digits
  | done hs hash digits =>
    rw [micro_of_not_busy hl (done_not_busy hs)]
    exact .done hs hash digits

/-- A computation computes the digest of its message, however many turns the engine has had. -/
theorem Engine.tracks_iterate {e : Engine} (h : e.Tracks e.message) (hinv : e.Inv)
    (hb : e.isBusy = true) (n : Nat) : (micro^[n] e).Tracks e.message := by
  induction n with
  | zero => exact h
  | succ n ih =>
    obtain ⟨hinv', -, hlen, hM⟩ := computesInputOf_iterate hinv hb n
    rw [Function.iterate_succ_apply']
    rw [← message_congr hlen hM] at ih ⊢
    exact ih.micro hinv'

/-- In DONE the digest is there. -/
theorem Engine.Tracks.of_done {m : List Byte} {e : Engine} (h : e.Tracks m)
    (hs : e.STG = Stage.done) : e.hash = Reference.sha1w m ∧
      AgreesBelow e.DIG ((Reference.sha1hex m).getD · 0#8) 40 := by
  cases h with
  | done _ hash digits => exact ⟨hash, digits⟩
  | seg hs' | xpd hs' | lds hs' | rnd hs' | fold hs' | enc hs' => simp [hs] at hs'

end Sys2Proof.Machine

/-! PROOFS. The `DIGEST` operation (`40_host_commands.md` R128): what a host program of transactions
leaves, what `LOADMSG` and `START` make of the engine, and what `WAIT` and the reads then return. -/

namespace Sys2Proof.Machine

/-! ### Host programs (`30_encoding.md` R102) -/

/-- An operation that the host can issue: a well-formed transaction or command. -/
def Instr.Issuable (i : Instr) : Prop := i.wf = true ∧ i.format ≠ .s

/-- The turn in which an operation is issued runs that operation; a command goes as a write of `CMD`. -/
theorem step_issue {i : Instr} (hi : Instr.Issuable i) {s : State} (ht : s.turn = issue i) :
    step s = exec i s.taken := by
  obtain ⟨hw, hf⟩ := hi
  have hd := decode_encode hw
  rw [issue] at ht
  cases hc : encode i with
  | t w =>
    rw [hc] at hd ht
    exact step_of_host ht hd
  | c w =>
    rw [hc] at hd ht
    rw [step_of_host ht (decodeT_pack _)]
    exact exec_wr_cmd hd s.taken
  | s w =>
    rw [hc] at hd
    exact absurd (decodeSeq_format hd) hf

/-- The engine after the operations `is`. -/
def effects (is : List Instr) (e : Engine) : Engine := is.foldl (fun e i => effect i e) e

@[simp] theorem effects_nil (e : Engine) : effects [] e = e := rfl

@[simp] theorem effects_cons (i : Instr) (is : List Instr) (e : Engine) :
    effects (i :: is) e = effects is (effect i e) := rfl

theorem effects_append (is js : List Instr) (e : Engine) :
    effects (is ++ js) e = effects js (effects is e) := List.foldl_append

/-- A host program runs to its end, with the effects of its operations in order. -/
theorem run_issued {is : List Instr} (hi : ∀ i ∈ is, Instr.Issuable i) {s : State}
    (ht : s.turns = is.map issue) :
    ∃ t, Sys2Proof.core.run is.length s = .next t ∧ t.engine = effects is s.engine := by
  induction is generalizing s with
  | nil => exact ⟨s, rfl, rfl⟩
  | cons i is ih =>
    obtain ⟨hi, his⟩ := List.forall_mem_cons.mp hi
    obtain ⟨t, hx, he, hturns⟩ := exec_spec i s.taken
    have hs : Sys2Proof.core.step s = .next t :=
      (step_issue hi (by simp [State.turn, ht])).trans hx
    obtain ⟨u, hrun, hu⟩ := ih his (s := t) (by simp [hturns, ht])
    refine ⟨u, ?_, by rw [hu, he]; rfl⟩
    simp only [List.length_cons, Host.Core.run, hs]
    exact hrun

theorem play_issued {is : List Instr} (hi : ∀ i ∈ is, Instr.Issuable i) (s : State) :
    ∃ t, play (is.map issue) s = .next t ∧ t.engine = effects is s.engine := by
  rw [play, List.length_map]
  exact run_issued hi rfl

/-- Reads of registers that have a value answer with those values, in order. -/
theorem answers_reads {ι : Type} {reg : ι → Reg} {value : ι → Word} (hw : ∀ i, (reg i).wf = true)
    (is : List ι) {s : State} (hv : ∀ i, s.engine.readReg (reg i) = some (value i))
    (ht : s.turns = is.map (fun i => issue (.rd (reg i)))) :
    answers is.length s = is.map value := by
  induction is generalizing s with
  | nil => rfl
  | cons i is ih =>
    have hturn : s.turn = issue (.rd (reg i)) := by simp [State.turn, ht]
    have hs : step s = .next { s.taken with rdata := some (value i) } := by
      rw [step_issue (i := .rd (reg i)) ⟨hw i, nofun⟩ hturn, exec_rd, State.taken_engine, hv]
      rfl
    have hhost : issue (.rd (reg i)) = .host (packT ⟨false, false, (reg i).addr, 0#32⟩) := rfl
    rw [hhost] at hturn
    have hrest := ih (s := { s.taken with rdata := some (value i) }) hv (by simp [ht])
    simp only [List.length_cons, answers, hs, hturn, List.map_cons, hrest]

/-! ### `LOADMSG` -/

/-- The operations of `storeBytes`. -/
def storeOps (a : Nat) : List Byte → List Instr
  | [] => []
  | b :: m => .wrm (byteAddr a) b :: storeOps (a + 1) m

theorem storeBytes_eq_map (a : Nat) (m : List Byte) : storeBytes a m = (storeOps a m).map issue := by
  induction m generalizing a with
  | nil => rfl
  | cons b m ih => simp [storeBytes, storeOps, ih]

theorem storeOps_issuable (a : Nat) (m : List Byte) : ∀ i ∈ storeOps a m, Instr.Issuable i := by
  induction m generalizing a with
  | nil => nofun
  | cons b m ih => exact List.forall_mem_cons.mpr ⟨⟨rfl, nofun⟩, ih (a + 1)⟩

theorem Engine.Inv.memory_wf {e : Engine} (h : e.Inv) : e.M.wf := by
  obtain ⟨-, -, -, -, -, hm⟩ := h
  exact hm

theorem Memory.size_le {m : Memory} (h : m.wf) : m.size ≤ Config.msgCapMax := by
  obtain ⟨-, -, hcap⟩ := h
  exact hcap

/-- Every legal capacity is below `2^29` (`00_scope.md` R9). -/
theorem Memory.size_lt {m : Memory} (h : m.wf) : m.size < 2 ^ 29 := by
  have := size_le h
  have : Config.msgCapMax = 536870911 := rfl
  omega

/-- Memory with the bytes of `bs` written at rising addresses from `a`, as `LOADMSG` spells them. -/
def Memory.store (m : Memory) (a : Nat) : List Byte → Memory
  | [] => m
  | b :: bs => (m.write (byteAddr a).toNat b).store (a + 1) bs

@[simp] theorem Memory.store_size (m : Memory) (a : Nat) (bs : List Byte) :
    (m.store a bs).size = m.size := by
  induction bs generalizing m a with
  | nil => rfl
  | cons b bs ih => rw [Memory.store, ih, write_size]

theorem Memory.store_wf {m : Memory} (h : m.wf) (a : Nat) (bs : List Byte) : (m.store a bs).wf := by
  induction bs generalizing m a with
  | nil => exact h
  | cons b bs ih => exact ih (write_wf h _ b) (a + 1)

/-- Bytes stored within the capacity read back, and the bytes before them are as they were. -/
theorem Memory.byteAt_store {m : Memory} (h : m.wf) {a : Nat} {bs : List Byte}
    (ha : a + bs.length ≤ m.size) :
    (∀ x, x < a → (m.store a bs).byteAt x = m.byteAt x) ∧
    (∀ i (hi : i < bs.length), (m.store a bs).byteAt (a + i) = bs[i]) := by
  induction bs generalizing m a with
  | nil => exact ⟨fun _ _ => rfl, nofun⟩
  | cons b bs ih =>
    have hcap := size_lt h
    simp only [List.length_cons] at ha
    have haddr : (byteAddr a).toNat = a := byteAddr_toNat (by omega)
    obtain ⟨hlow, hread⟩ := ih (write_wf h a b) (a := a + 1) (by rw [write_size]; omega)
    rw [Memory.store, haddr]
    refine ⟨fun x hx => ?_, fun i hi => ?_⟩
    · rw [hlow x (by omega), byteAt_write h, if_neg (by omega)]
    · cases i with
      | zero =>
        exact (hlow a (Nat.lt_succ_self a)).trans
          ((byteAt_write h a a b).trans (if_pos ⟨rfl, by omega⟩))
      | succ i =>
        rw [show a + (i + 1) = a + 1 + i by omega]
        exact hread i (by simpa using hi)

/-- Outside BUSY the bytes are stored and nothing else changes. -/
theorem effects_storeOps {e : Engine} (hb : e.isBusy = false) (a : Nat) (m : List Byte) :
    effects (storeOps a m) e = { e with M := e.M.store a m } := by
  induction m generalizing e a with
  | nil => rfl
  | cons b m ih =>
    have hw : e.writeMessage (byteAddr a).toNat b =
        { e with M := e.M.write (byteAddr a).toNat b } := by
      simp [Engine.writeMessage, hb]
    rw [storeOps, effects_cons, effect, hw]
    exact ih (e := { e with M := e.M.write (byteAddr a).toNat b }) hb (a + 1)

/-- The engine after `LOADMSG` of `m` outside BUSY. -/
def Engine.loaded (e : Engine) (m : List Byte) : Engine :=
  { e with LEN := lenWord m.length, M := e.M.store 0 m }

/-- The operations of `LOADMSG` and `START`. -/
def startOps (m : List Byte) : List Instr := storeOps 0 m ++ [.wr .len (lenWord m.length), .start]

theorem loadMsg_start_eq_map (m : List Byte) :
    loadMsg m ++ [issue .start] = (startOps m).map issue := by
  simp [loadMsg, startOps, storeBytes_eq_map]

theorem startOps_issuable (m : List Byte) : ∀ i ∈ startOps m, Instr.Issuable i := by
  simp only [startOps, List.forall_mem_append, List.forall_mem_cons]
  exact ⟨storeOps_issuable 0 m, ⟨rfl, nofun⟩, ⟨rfl, nofun⟩, nofun⟩

/-- Outside BUSY and FAULT, `LOADMSG` and `START` start on the loaded message. -/
theorem effects_startOps {e : Engine} (hb : e.isBusy = false) (hf : e.isFault = false)
    (m : List Byte) : effects (startOps m) e = (e.loaded m).start := by
  have hlen : effect (.wr .len (lenWord m.length)) { e with M := e.M.store 0 m } = e.loaded m := by
    have hb' : ({ e with M := e.M.store 0 m } : Engine).isBusy = false := hb
    simp [effect, Engine.writeReg, hb', Engine.loaded]
  have hstart : effect .start (e.loaded m) = (e.loaded m).start := by
    have hb' : (e.loaded m).isBusy = false := hb
    have hf' : (e.loaded m).isFault = false := hf
    rw [effect, Engine.command_start, hb', hf']
    rfl
  rw [startOps, effects_append, effects_storeOps hb, effects_cons, hlen, effects_cons, hstart,
    effects_nil]

/-- A message that fits is the loaded engine's message. -/
theorem Engine.message_loaded {e : Engine} (h : e.M.wf) {m : List Byte}
    (hm : m.length ≤ e.M.size) : (e.loaded m).LEN.toNat = m.length ∧ (e.loaded m).message = m := by
  have hcap := Memory.size_lt h
  have hlen : (e.loaded m).LEN.toNat = m.length := lenWord_toNat (by omega)
  obtain ⟨-, hread⟩ := Memory.byteAt_store h (a := 0) (bs := m) (by omega)
  refine ⟨hlen, List.ext_getElem (by rw [message_length, hlen]) fun i _ hi => ?_⟩
  rw [message_getElem, ← hread i hi, Nat.zero_add]
  rfl

/-! ### The computation from `START` to DONE (`60_exceptions.md` R201, R246) -/

/-- `START` accepted begins the computation of the digest of the message, with every micro-operation
still to run. -/
theorem Engine.start_tracks {e : Engine} (h : e.Inv) (hf : e.isFault = false)
    (hm : e.LEN.toNat ≤ e.M.size) :
    e.start.Inv ∧ e.start.isBusy = true ∧ e.start.stepsLeft = microOps e.LEN.toNat ∧
      e.start.message = e.message ∧ e.start.Tracks e.message := by
  have hcap := Memory.size_lt h.memory_wf
  have hlt : e.LEN.toNat < 2 ^ 29 := by omega
  have hn := blockCount_toNat hlt
  rw [start_accepted hlt hm]
  refine ⟨started_inv h hf hlt hm, rfl, ?_, rfl, .seg rfl rfl (agreesBelow_zero _ _)⟩
  simp [Engine.stepsLeft, microOps, hn]
  omega

/-- What `WAIT` among harmless turns ends with is the engine some turns later. -/
theorem wait_harmless_iterate {gaps : List (List Turn)}
    (hh : ∀ g ∈ gaps, ∀ t ∈ g, t.harmless = true) {s u : State} {x : Word}
    (hl : s.engine.SeqLegal) (h : wait gaps s = some (u, x)) :
    ∃ n, u.engine = Engine.micro^[n] s.engine := by
  induction gaps generalizing s with
  | nil => cases h
  | cons g gs ih =>
    obtain ⟨hg, hgs⟩ := List.forall_mem_cons.mp hh
    obtain ⟨t, hp, he⟩ := play_harmless hg hl
    rw [wait_of_play hp] at h
    split at h
    · have hl' : t.engine.SeqLegal := by
        rw [he]
        exact Function.Iterate.rec Engine.SeqLegal hl (fun _ => Engine.micro_seqLegal) _
      obtain ⟨n, hn⟩ := ih hgs (s := { t with rdata := some t.engine.status, turns := [] }) hl' h
      exact ⟨n + g.count .engine, by rw [hn, Function.iterate_add_apply, ← he]⟩
    · obtain ⟨rfl, -⟩ := Prod.mk.inj (Option.some.inj h)
      exact ⟨_, he⟩

/-- `WAIT` among harmless turns, with enough of them the engine's, ends in DONE with the digest of the
message that the computation tracks. -/
theorem wait_tracks {gaps : List (List Turn)} (hh : ∀ g ∈ gaps, ∀ t ∈ g, t.harmless = true)
    {s : State} (h : s.engine.Inv) (hb : s.engine.isBusy = true)
    (htracks : s.engine.Tracks s.engine.message)
    (hle : s.engine.stepsLeft ≤ gaps.flatten.count .engine) :
    ∃ u, wait gaps s = some (u, 0x00000002#32) ∧ u.engine.STG = Stage.done ∧
      u.engine.message = s.engine.message ∧ u.engine.Tracks s.engine.message := by
  obtain ⟨-, hends⟩ := wait_harmless hh h hb
  obtain ⟨hl, -⟩ := id h
  obtain ⟨u, hw, hdone, hlen, hM⟩ := hends hle
  obtain ⟨n, hn⟩ := wait_harmless_iterate hh hl hw
  exact ⟨u, hw, hdone, Engine.message_congr hlen hM, hn ▸ Engine.tracks_iterate htracks h hb n⟩

/-! ### `DIGEST` -/

/-- What `DIGEST` makes of the end of `WAIT`: `READHEX` where the status is DONE (R128). -/
def readOut (u : State) (x : Word) : Digested :=
  ⟨u, x, if x = 0x00000002#32 then answers readHex.length (u.withTurns readHex) else []⟩

theorem readOut_words_done (u : State) :
    (readOut u 0x00000002#32).words = answers readHex.length (u.withTurns readHex) := by
  rw [readOut, if_pos rfl]

/-- `DIGEST` outside BUSY and FAULT is `WAIT`, then `READHEX` in DONE, on the engine that `START` makes
of the loaded message. -/
theorem digest_eq {s : State} (hb : s.engine.isBusy = false) (hf : s.engine.isFault = false)
    (m : List Byte) (gaps : List (List Turn)) :
    ∃ t : State, t.engine = (s.engine.loaded m).start ∧
      digest m gaps s = (wait gaps t).map fun p => readOut p.1 p.2 := by
  obtain ⟨t, hp, he⟩ := play_issued (startOps_issuable m) s
  refine ⟨t, he.trans (effects_startOps hb hf m), ?_⟩
  rw [digest, loadMsg_start_eq_map]
  simp only [hp]
  cases wait gaps t <;> rfl

/-- `READBIN` in DONE returns the running state. -/
theorem answers_readBin {s : State} (hs : s.engine.STG = Stage.done) :
    answers 5 (s.withTurns readBin) = s.engine.hash.words :=
  answers_reads (reg := .h) (fun _ => rfl) (List.finRange 5) (s := s.withTurns readBin)
    (Engine.readReg_h hs) rfl

/-- `READHEX` in DONE returns the characters, four a word. -/
theorem answers_readHex {s : State} (hs : s.engine.STG = Stage.done) :
    answers readHex.length (s.withTurns readHex) = (List.range 10).map s.engine.digestWord :=
  answers_reads (reg := .digw) (fun _ => rfl) (List.finRange 10) (s := s.withTurns readHex)
    (Engine.readReg_digw hs) rfl

/-- The words of the characters in DONE are those of the reference digest. -/
theorem Engine.digestWord_eq {e : Engine} {d : List Byte}
    (h : AgreesBelow e.DIG (d.getD · 0#8) 40) {k : Nat} (hk : k < 10) :
    e.digestWord k = wordOfBytes (d.getD (4 * k) 0#8) (d.getD (4 * k + 1) 0#8)
      (d.getD (4 * k + 2) 0#8) (d.getD (4 * k + 3) 0#8) := by
  rw [Engine.digestWord, h _ (by omega), h _ (by omega), h _ (by omega), h _ (by omega)]

/-- The status after a refused `START` (`60_exceptions.md` R201, `10_state.md` R40). -/
theorem Engine.status_raise_inputTooLarge (e : Engine) :
    (e.raise .inputTooLarge).status = 0x00000014#32 := by
  apply BitVec.eq_of_toNat_eq
  rw [toNat_status_fault rfl]
  rfl

/-- `WAIT` after a refused `START` ends at its first poll, still in the fault. -/
theorem wait_of_fault {g : List Turn} (hg : ∀ t ∈ g, t.harmless = true) (gs : List (List Turn))
    {s : State} {e : Engine} (hs : s.engine = e.raise .inputTooLarge) :
    ∃ u, wait (g :: gs) s = some (u, 0x00000014#32) ∧ u.engine = e.raise .inputTooLarge := by
  have hb : (e.raise .inputTooLarge).isBusy = false := Engine.fault_not_busy rfl
  have hl : (e.raise .inputTooLarge).SeqLegal := by simp [Engine.SeqLegal]
  obtain ⟨t, hp, ht⟩ := play_harmless hg (s := s) (hs ▸ hl)
  rw [hs, Function.iterate_fixed (Engine.micro_of_not_busy hl hb)] at ht
  rw [wait_of_play hp, ht, hb, Engine.status_raise_inputTooLarge]
  exact ⟨_, rfl, rfl⟩

/-- `LOADMSG` of a message that fits, and `START`, begin the computation of its digest. -/
theorem Engine.loaded_start_tracks {e : Engine} (h : e.Inv) (hb : e.isBusy = false)
    (hf : e.isFault = false) {m : List Byte} (hm : m.length ≤ e.M.size) :
    (e.loaded m).start.Inv ∧ (e.loaded m).start.isBusy = true ∧
      (e.loaded m).start.stepsLeft = microOps m.length ∧ (e.loaded m).start.message = m ∧
      (e.loaded m).start.Tracks m := by
  have hwf := h.memory_wf
  obtain ⟨hlen, hmsg⟩ := message_loaded hwf hm
  have hstart := start_tracks (h.setInput hb (lenWord m.length) (Memory.store_wf hwf 0 m)) hf
    (by rw [Memory.store_size]; exact hlen.trans_le hm)
  rwa [← Engine.loaded, hlen, hmsg] at hstart

/-- Settles O52: `WAIT` runs the computation that `START` begins on the loaded message, which tracks the
reference function up to DONE; on a message that does not fit it finds the fault. -/
theorem digestOperationReturnsSha1 : Obligations.DigestOperationReturnsSha1 := by
  intro s m gaps hinv hs hh
  obtain ⟨hb, hf⟩ := Engine.ready_not_busy hs
  obtain ⟨t, he, hdigest⟩ := digest_eq hb hf m gaps
  rw [hdigest]
  refine ⟨fun hm hlt => ?_, fun hm hle => ?_, fun hm hne => ?_⟩
  · obtain ⟨hinv', hb', hleft, -, -⟩ := he ▸ Engine.loaded_start_tracks hinv hb hf hm
    obtain ⟨hnone, -⟩ := wait_harmless hh hinv' hb'
    rw [hnone (hleft ▸ hlt)]
    rfl
  · obtain ⟨hinv', hb', hleft, hmsg, htracks⟩ := he ▸ Engine.loaded_start_tracks hinv hb hf hm
    obtain ⟨u, hw, hdone, hmsg', htracks'⟩ :=
      wait_tracks hh hinv' hb' (hmsg.symm ▸ htracks) (hleft ▸ hle)
    rw [hmsg] at hmsg' htracks'
    obtain ⟨hhash, hdig⟩ := htracks'.of_done hdone
    rw [hw]
    refine ⟨readOut u _, rfl, rfl, hdone, hmsg', ?_, ?_⟩
    · rw [← hhash]
      exact answers_readBin hdone
    · refine (readOut_words_done u).trans ((answers_readHex hdone).trans ?_)
      exact List.map_congr_left fun k hk => Engine.digestWord_eq hdig (List.mem_range.mp hk)
  · obtain ⟨g, gs, rfl⟩ := List.exists_cons_of_ne_nil hne
    have hlen := lenWord_tooLarge (Memory.size_le hinv.memory_wf) hm
    rw [Engine.start_tooLarge (.inr (by rw [Engine.loaded, Memory.store_size]; exact hlen))] at he
    obtain ⟨hg, -⟩ := List.forall_mem_cons.mp hh
    obtain ⟨u, hw, hu⟩ := wait_of_fault hg gs he
    rw [hw]
    exact ⟨readOut u _, rfl, rfl, rfl, congrArg Engine.STG hu, congrArg Engine.ECODE hu⟩

end Sys2Proof.Machine

/-! PROOFS. The padder and segmentor (`41_padding_segmentation.md`): the block count, the bytes of the
padded stream, `LDW`, and the stage SEG as sixteen of them. -/

namespace Sys2Proof.Machine

/-! ### The block count (R141, R30) -/

/-- The last block ends at least 9 bytes past the message, and at most 72. -/
theorem paddedLength_range (len : Nat) :
    len + 9 ≤ 64 * ((len + 72) / 64) ∧ 64 * ((len + 72) / 64) ≤ len + 72 := by
  omega

/-- Settles O28: the register holds the count unreduced, and the rest is arithmetic on it. -/
theorem blockCountOfLength : Obligations.BlockCountOfLength := by
  intro len h n z
  have hn : n = (len.toNat + 72) / 64 := blockCount_toNat h
  obtain ⟨hlo, hhi⟩ := paddedLength_range len.toNat
  rw [← hn] at hlo hhi
  have hz : z = 64 * n - len.toNat - 9 := rfl
  omega

/-! ### The bytes of the padded stream (R142) -/

theorem Engine.paddedByte_message {e : Engine} {i : Nat} (hi : i < 64 * e.NBLK.toNat)
    (h : i < e.LEN.toNat) : e.paddedByte i = e.M.byteAt i := by
  rw [Engine.paddedByte, if_neg (by omega), if_pos h]

theorem Engine.paddedByte_marker {e : Engine} (h : e.LEN.toNat < 64 * e.NBLK.toNat) :
    e.paddedByte e.LEN.toNat = 0x80#8 := by
  rw [Engine.paddedByte, if_neg (by omega), if_neg (by omega), if_pos rfl]

theorem Engine.paddedByte_zero {e : Engine} {i : Nat} (hlo : e.LEN.toNat < i)
    (hhi : i < 64 * e.NBLK.toNat - 8) : e.paddedByte i = 0x00#8 := by
  rw [Engine.paddedByte, if_neg (by omega), if_neg (by omega), if_neg (by omega), if_pos hhi]

/-- Byte `k` of the length field, from the stream's end, is byte `k` of the bit length (R143). -/
theorem Engine.paddedByte_lengthField {e : Engine} (hlen : e.LEN.toNat < 2 ^ 29)
    (h : e.LEN.toNat + 9 ≤ 64 * e.NBLK.toNat) {k : Nat} (hk : k < 8) :
    e.paddedByte (64 * e.NBLK.toNat - 1 - k) =
      (BitVec.ofNat 32 (8 * e.LEN.toNat)).extractLsb' (8 * k) 8 := by
  rw [Engine.paddedByte, if_neg (by omega), if_neg (by omega), if_neg (by omega),
    if_neg (by omega), Nat.sub_sub_self (by omega)]
  apply BitVec.eq_of_toNat_eq
  rw [BitVec.toNat_ofNat, BitVec.extractLsb'_toNat, BitVec.toNat_ofNat,
    Nat.mod_eq_of_lt (a := 8 * e.LEN.toNat) (by omega)]

/-- The upper four bytes of the length field are 0: the bit length fits 32 bits (R143). -/
theorem Engine.paddedByte_lengthField_upper {e : Engine} (hlen : e.LEN.toNat < 2 ^ 29)
    (h : e.LEN.toNat + 9 ≤ 64 * e.NBLK.toNat) {k : Nat} (hlo : 4 ≤ k) (hk : k < 8) :
    e.paddedByte (64 * e.NBLK.toNat - 1 - k) = 0x00#8 := by
  rw [paddedByte_lengthField hlen h hk]
  apply BitVec.eq_of_toNat_eq
  rw [BitVec.extractLsb'_toNat, BitVec.toNat_ofNat, Nat.shiftRight_eq_zero]
  · rfl
  · calc 8 * e.LEN.toNat % 2 ^ 32
      _ < 2 ^ 32 := Nat.mod_lt _ (by decide)
      _ ≤ 2 ^ (8 * k) := Nat.pow_le_pow_right (by decide) (by omega)

/-- Settles O29: each position by the part of the stream it is in. -/
theorem paddedStreamBytes : Obligations.PaddedStreamBytes := by
  intro e i hlen hn p
  have hp : e.LEN.toNat + 9 ≤ p := by
    obtain ⟨hlo, -⟩ := paddedLength_range e.LEN.toNat
    rwa [← hn] at hlo
  have hfield {k : Nat} (hk : k < 8) := Engine.paddedByte_lengthField hlen hp hk
  refine ⟨fun h => Engine.paddedByte_message (by omega) h, ?_, fun hlo hhi => ?_,
    hfield (k := 3) (by decide), hfield (k := 2) (by decide), hfield (k := 1) (by decide),
    hfield (k := 0) (by decide)⟩
  · rintro rfl
    exact Engine.paddedByte_marker (by omega)
  · by_cases h8 : i < p - 8
    · exact Engine.paddedByte_zero hlo h8
    · obtain ⟨k, hk⟩ : ∃ k, i = p - 1 - k := ⟨p - 1 - i, by omega⟩
      rw [hk]
      exact Engine.paddedByte_lengthField_upper hlen hp (by omega) (by omega)

/-- Settles O30: below the stream's end the two functions are one. -/
theorem paddedStreamIsReferencePadding : Obligations.PaddedStreamIsReferencePadding :=
  fun _ _ hn hi => Engine.paddedByte_eq_pad hn hi

/-! ### `LDW` (R146, R147) -/

theorem exec_ldw (t : Index) (s : State) : exec (.ldw t) s = .next (s.microOp (·.loadWord t)) := rfl

/-- Everything `LDW` does: one word of `BLK`, and the sequencer's move. -/
theorem Engine.loadWord_eq (e : Engine) (t : Index) :
    e.loadWord t = { e with
      BLK := rset e.BLK t.toNat (e.paddedWord e.BI.toNat t.toNat)
      STG := if t.toNat = 15 then 2#4 else 1#4
      J := if t.toNat = 15 then 0#7 else BitVec.ofNat 7 (t.toNat + 1) } :=
  Engine.advance_spec _ _ _ t (last := 15) (by decide)

/-- Settles O31: the word written is `PW(BI, t)`, the big-endian word of its four bytes. -/
theorem ldwLoadsPaddedWord : Obligations.LdwLoadsPaddedWord := by
  intro s t ht
  refine ⟨rset s.engine.BLK t.toNat (s.engine.paddedWord s.engine.BI.toNat t.toNat), ?_, ?_,
    fun k _ hne => rget_rset_ne _ _ _ _ hne.symm⟩
  · rw [exec_ldw, State.microOp, Engine.loadWord_eq]
  · rw [rget_rset_self _ _ _ (by omega)]
    exact toNat_wordOfBytes _ _ _ _

/-! ### The stage SEG (R145, R147, R148) -/

theorem Engine.micro_of_seg {e : Engine} (hs : e.STG = Stage.seg) (hj : e.J.toNat ≤ 15) :
    e.micro = e.loadWord e.J := by
  have hd : decodeSeq e.STG e.J = .ok (.ldw e.J) := by rw [hs, decodeSeq_seg, if_pos hj]
  simp only [Engine.micro, hd, effect]

/-- `e'` is `e` with the first `n` words of block `BI` loaded and the sequencer at the next word, or
at XPD after the last. -/
def Engine.HasLoaded (e : Engine) (n : Nat) (e' : Engine) : Prop :=
  AgreesBelow e'.BLK (Reference.word e.message e.BI.toNat) n ∧
  e' = { e with
    BLK := e'.BLK
    STG := if n = 16 then 2#4 else 1#4
    J := if n = 16 then 0#7 else BitVec.ofNat 7 n }

theorem Engine.hasLoaded_zero {e : Engine} (hs : e.STG = Stage.seg) (hj : e.J = 0#7) :
    e.HasLoaded 0 e := by
  refine ⟨agreesBelow_zero _ _, ?_⟩
  rw [if_neg (by decide), if_neg (by decide), ← stage_seg, ← hs, ← hj]

/-- The engine's turn loads one word more. -/
theorem Engine.HasLoaded.micro {e e' : Engine} {n : Nat} (h : e.HasLoaded n e') (hn : n < 16)
    (hcount : e.NBLK.toNat = (e.LEN.toNat + 72) / 64) (hbi : e.BI.toNat < e.NBLK.toNat) :
    e.HasLoaded (n + 1) e'.micro := by
  obtain ⟨hblk, he⟩ := h
  rw [if_neg (by omega), if_neg (by omega)] at he
  generalize e'.BLK = blk at hblk he
  subst he
  have hj : (BitVec.ofNat 7 n).toNat = n := by
    rw [BitVec.toNat_ofNat]
    omega
  rw [micro_of_seg rfl (by rw [hj]; omega), loadWord_eq]
  simp only [hj]
  refine ⟨hblk.rset hn (paddedWord_eq_word hcount hbi hn), ?_⟩
  simp only [Nat.reduceEqDiff]

/-- Up to sixteen turns of the engine in SEG load as many words. -/
theorem Engine.hasLoaded_iterate {e : Engine} (hs : e.STG = Stage.seg) (hj : e.J = 0#7)
    (hcount : e.NBLK.toNat = (e.LEN.toNat + 72) / 64) (hbi : e.BI.toNat < e.NBLK.toNat) {n : Nat}
    (hn : n ≤ 16) : e.HasLoaded n (Engine.micro^[n] e) := by
  induction n with
  | zero => exact hasLoaded_zero hs hj
  | succ n ih =>
    rw [Function.iterate_succ_apply']
    exact (ih (by omega)).micro (by omega) hcount hbi

/-- Settles O47: with no turn listed the run is sixteen turns of the engine, each a word of the block. -/
theorem segStageLoadsBlock : Obligations.SegStageLoadsBlock := by
  intro s h hs hj ht
  obtain ⟨hl, -, hrun, -⟩ := h
  obtain ⟨-, hcount, hbi, -⟩ := hrun (Engine.isBusy_of_stage hs (by decide))
  obtain ⟨hblk, he⟩ := Engine.hasLoaded_iterate hs hj hcount hbi le_rfl
  have hrun := run_engine_alone 16 ht hl
  generalize Engine.micro^[16] s.engine = e' at hblk he hrun
  exact ⟨_, hrun, congrArg Engine.STG he, congrArg Engine.J he, hblk, he⟩

end Sys2Proof.Machine

/-! PROOFS. The schedule expander (`42_schedule_expansion.md`): `CPW`, `XW`, and the stage XPD as the
eighty words of the reference schedule. -/

namespace Sys2Proof.Machine

/-! ### `CPW` and `XW` (R161 to R164) -/

theorem exec_cpw (j : Index) (s : State) : exec (.cpw j) s = .next (s.microOp (·.copyWord j)) := rfl

theorem exec_xw (j : Index) (s : State) : exec (.xw j) s = .next (s.microOp (·.deriveWord j)) := rfl

/-- Everything `CPW` does: one word of `W`, and the sequencer's move to the next index. -/
theorem Engine.copyWord_eq (e : Engine) (j : Index) :
    e.copyWord j = { e with
      W := rset e.W j.toNat (rget e.BLK j.toNat), STG := 2#4, J := BitVec.ofNat 7 (j.toNat + 1) } := by
  have hj : j + 1#7 = BitVec.ofNat 7 (j.toNat + 1) := by
    apply BitVec.eq_of_toNat_eq
    simp
  rw [Engine.copyWord, hj]
  rfl

/-- Everything `XW` does: one word of `W`, and the sequencer's move. -/
theorem Engine.deriveWord_eq (e : Engine) (j : Index) :
    e.deriveWord j = { e with
      W := rset e.W j.toNat (e.derivedWord j.toNat)
      STG := if j.toNat = 79 then 3#4 else 2#4
      J := if j.toNat = 79 then 0#7 else BitVec.ofNat 7 (j.toNat + 1) } :=
  Engine.advance_spec _ _ _ j (last := 79) (by decide)

/-- Settles O32: the word written is `BLK[j]`. -/
theorem cpwCopiesBlockWord : Obligations.CpwCopiesBlockWord := by
  intro s j hj
  refine ⟨rset s.engine.W j.toNat (rget s.engine.BLK j.toNat), ?_, rget_rset_self _ _ _ (by omega),
    fun k _ hne => rget_rset_ne _ _ _ _ hne.symm⟩
  rw [exec_cpw, State.microOp, Engine.copyWord_eq]

/-- Settles O33: the word written is the mix of the four earlier words, and `rotl` by one place is the
rotation. -/
theorem xwDerivesScheduleWord : Obligations.XwDerivesScheduleWord := by
  intro s j _ hhi
  refine ⟨rset s.engine.W j.toNat (s.engine.derivedWord j.toNat), ?_, ?_,
    fun k _ hne => rget_rset_ne _ _ _ _ hne.symm⟩
  · rw [exec_xw, State.microOp, Engine.deriveWord_eq]
  · rw [rget_rset_self _ _ _ (by omega)]
    exact rotl_eq_rotateLeft _ (n := 1) (by decide) (by decide)

/-! ### The stage XPD (R165) -/

/-- The engine's turn in XPD is a copied word up to index 15 and a derived word after it. -/
theorem Engine.micro_of_xpd {e : Engine} (hs : e.STG = Stage.xpd) (hj : e.J.toNat ≤ 79) :
    e.micro = if e.J.toNat ≤ 15 then e.copyWord e.J else e.deriveWord e.J := by
  have hd := decodeSeq_xpd e.J
  rw [← hs, if_pos hj] at hd
  by_cases h : e.J.toNat ≤ 15
  · rw [if_pos h] at hd ⊢
    simp only [Engine.micro, hd, effect]
  · rw [if_neg h] at hd ⊢
    simp only [Engine.micro, hd, effect]

/-- The engine's turn in XPD changes `W` and moves the sequencer; everything else is kept. -/
theorem Engine.micro_frame_of_xpd {e : Engine} (hs : e.STG = Stage.xpd) (hj : e.J.toNat ≤ 79) :
    e.micro = { e with
      W := e.micro.W
      STG := if e.J.toNat = 79 then 3#4 else 2#4
      J := if e.J.toNat = 79 then 0#7 else BitVec.ofNat 7 (e.J.toNat + 1) } := by
  rw [micro_of_xpd hs hj]
  by_cases h : e.J.toNat ≤ 15
  · rw [if_pos h, if_neg (by omega), if_neg (by omega), copyWord_eq]
  · rw [if_neg h, deriveWord_eq]

/-- The engine's turn in XPD writes the next word of the schedule of the block in `BLK`. -/
theorem Engine.micro_schedule_of_xpd {e : Engine} (hs : e.STG = Stage.xpd) (hj : e.J.toNat ≤ 79)
    (h : AgreesBelow e.W (schedWord (rget e.BLK)) e.J.toNat) :
    AgreesBelow e.micro.W (schedWord (rget e.BLK)) (e.J.toNat + 1) := by
  rw [micro_of_xpd hs hj]
  by_cases h15 : e.J.toNat ≤ 15
  · rw [if_pos h15]
    exact copyWord_schedule (fun _ _ => rfl) h15 h
  · rw [if_neg h15]
    exact deriveWord_schedule (by omega) hj h

/-- `e'` is `e` with the first `n` words of its block's schedule built and the sequencer at the next
word, or at LDS after the last. -/
def Engine.HasScheduled (e : Engine) (n : Nat) (e' : Engine) : Prop :=
  AgreesBelow e'.W (schedWord (rget e.BLK)) n ∧
  e' = { e with
    W := e'.W
    STG := if n = 80 then 3#4 else 2#4
    J := if n = 80 then 0#7 else BitVec.ofNat 7 n }

theorem Engine.hasScheduled_zero {e : Engine} (hs : e.STG = Stage.xpd) (hj : e.J = 0#7) :
    e.HasScheduled 0 e := by
  refine ⟨agreesBelow_zero _ _, ?_⟩
  rw [if_neg (by decide), if_neg (by decide), ← stage_xpd, ← hs, ← hj]

/-- The engine's turn builds one word more. -/
theorem Engine.HasScheduled.micro {e e' : Engine} {n : Nat} (h : e.HasScheduled n e') (hn : n < 80) :
    e.HasScheduled (n + 1) e'.micro := by
  obtain ⟨hw, he⟩ := h
  rw [if_neg (by omega), if_neg (by omega)] at he
  have hs : e'.STG = Stage.xpd := congrArg Engine.STG he
  have hblk : e'.BLK = e.BLK := by rw [he]
  have hj : e'.J.toNat = n := by
    rw [congrArg Engine.J he, BitVec.toNat_ofNat]
    omega
  have hle : e'.J.toNat ≤ 79 := by omega
  rw [← hblk, ← hj] at hw
  have hw' := micro_schedule_of_xpd hs hle hw
  have hframe := micro_frame_of_xpd hs hle
  rw [hblk, hj] at hw'
  refine ⟨hw', hframe.trans ?_⟩
  rw [hj, he]
  simp only [Nat.reduceEqDiff]

/-- Up to eighty turns of the engine in XPD build as many words. -/
theorem Engine.hasScheduled_iterate {e : Engine} (hs : e.STG = Stage.xpd) (hj : e.J = 0#7) {n : Nat}
    (hn : n ≤ 80) : e.HasScheduled n (Engine.micro^[n] e) := by
  induction n with
  | zero => exact hasScheduled_zero hs hj
  | succ n ih =>
    rw [Function.iterate_succ_apply']
    exact (ih (by omega)).micro (by omega)

/-- A register file that holds the eighty words of a schedule is that schedule. -/
theorem toList_eq_sched {w : Vector Word 80} {blk : Nat → Word}
    (h : AgreesBelow w (schedWord blk) 80) : w.toList = Reference.sched blk := by
  have hlen : (Reference.sched blk).length = 80 := Reference.schedWords_length blk 80
  rw [toList_eq_map_rget]
  apply List.ext_getElem
  · simp [hlen]
  · intro i h₁ h₂
    rw [List.getElem_map, List.getElem_range, h i (hlen ▸ h₂), schedWord,
      List.getD_eq_getElem _ _ h₂]

/-- Settles O48: with no turn listed the run is eighty turns of the engine, each a word of the
schedule. -/
theorem xpdStageBuildsSchedule : Obligations.XpdStageBuildsSchedule := by
  intro s hs hj ht
  have hl : s.engine.SeqLegal := .inr (.inr (.inl ⟨hs, by simp [hj]⟩))
  obtain ⟨hw, he⟩ := Engine.hasScheduled_iterate hs hj le_rfl
  have hrun := run_engine_alone 80 ht hl
  generalize Engine.micro^[80] s.engine = e' at hw he hrun
  exact ⟨_, hrun, toList_eq_sched hw, he⟩

end Sys2Proof.Machine

/-! PROOFS. The compression round (`43_compression_round.md`): the round functions, `LDS`, the round
operations, `FOLD`, and the stage RND as the eighty rounds of the reference function. -/

namespace Sys2Proof.Machine

/-! ### The round functions (R173) -/

/-- Choose, by the truth table of one bit. -/
theorem getLsbD_choose (b c d : Word) {i : Nat} (hi : i < 32) :
    ((b &&& c) ||| (~~~b &&& d)).getLsbD i = if b.getLsbD i then c.getLsbD i else d.getLsbD i := by
  rw [BitVec.getLsbD_or, BitVec.getLsbD_and, BitVec.getLsbD_and, BitVec.getLsbD_not,
    decide_eq_true hi]
  cases b.getLsbD i <;> simp

/-- Parity: the sum of the three bits is odd. -/
theorem getLsbD_parity (b c d : Word) (i : Nat) :
    (b ^^^ c ^^^ d).getLsbD i =
      decide (((b.getLsbD i).toNat + (c.getLsbD i).toNat + (d.getLsbD i).toNat) % 2 = 1) := by
  have table : ∀ x y z : Bool, (x ^^ y ^^ z) = decide ((x.toNat + y.toNat + z.toNat) % 2 = 1) := by
    decide
  rw [BitVec.getLsbD_xor, BitVec.getLsbD_xor, table]

/-- Majority: the sum of the three bits is at least two. -/
theorem getLsbD_majority (b c d : Word) (i : Nat) :
    ((b &&& c) ||| (b &&& d) ||| (c &&& d)).getLsbD i =
      decide (2 ≤ (b.getLsbD i).toNat + (c.getLsbD i).toNat + (d.getLsbD i).toNat) := by
  have table : ∀ x y z : Bool,
      (x && y || x && z || y && z) = decide (2 ≤ x.toNat + y.toNat + z.toNat) := by
    decide
  rw [BitVec.getLsbD_or, BitVec.getLsbD_or, BitVec.getLsbD_and, BitVec.getLsbD_and,
    BitVec.getLsbD_and, table]

/-- Settles O36: the truth table of each function, at each bit. -/
theorem roundFunctionsByBit : Obligations.RoundFunctionsByBit :=
  fun b c d i hi => ⟨getLsbD_choose b c d hi, getLsbD_parity b c d i, getLsbD_majority b c d i,
    getLsbD_parity b c d i⟩

/-! ### `LDS` (R172) -/

/-- Settles O34: `LDS` reads the five words inside the running state, and moves to RND. -/
theorem ldsLoadsRunningState : Obligations.LdsLoadsRunningState := fun _ => rfl

/-! ### The round operations (R171, R174 to R178) -/

/-- Everything a round operation does: the new `A`, the shift of the other working registers, and the
sequencer's move. -/
theorem Engine.roundStep_eq (e : Engine) (p : Fin 4) (j : Index) :
    e.roundStep p j = { e with
      A := e.A.rotateLeft 5 + phaseFn p e.B e.C e.D + e.E + phaseConst p + rget e.W j.toNat
      B := e.A
      C := e.B.rotateLeft 30
      D := e.C
      E := e.D
      STG := if j.toNat = 79 then 5#4 else 4#4
      J := if j.toNat = 79 then 0#7 else BitVec.ofNat 7 (j.toNat + 1) } := by
  rw [← rotl_eq_rotateLeft e.A (n := 5) (by decide) (by decide),
    ← rotl_eq_rotateLeft e.B (n := 30) (by decide) (by decide)]
  exact advance_spec _ _ _ j (last := 79) (by decide)

/-- The round operation of each phase is `ROUND(p)` (R174 to R177). -/
theorem exec_rnd (j : Index) (s : State) :
    exec (.rnd0 j) s = .next (s.microOp (·.roundStep 0 j)) ∧
    exec (.rnd1 j) s = .next (s.microOp (·.roundStep 1 j)) ∧
    exec (.rnd2 j) s = .next (s.microOp (·.roundStep 2 j)) ∧
    exec (.rnd3 j) s = .next (s.microOp (·.roundStep 3 j)) := ⟨rfl, rfl, rfl, rfl⟩

/-- Settles O35: one equation for the four operations, at the function and constant of each phase. -/
theorem roundsOfFourPhases : Obligations.RoundsOfFourPhases := by
  intro s j e shifted
  obtain ⟨h0, h1, h2, h3⟩ := exec_rnd j s
  have hround (p : Fin 4) :
      s.microOp (·.roundStep p j) = shifted (phaseFn p e.B e.C e.D) (phaseConst p) := by
    rw [State.microOp, Engine.roundStep_eq]
  rw [h0, h1, h2, h3, hround, hround, hround, hround]
  exact ⟨fun _ => rfl, fun _ => rfl, fun _ => rfl, fun _ => rfl⟩

/-! ### `FOLD` (R180, R181) -/

theorem exec_fold (s : State) : exec .fold s = .next (s.microOp (·.foldState)) := rfl

/-- Settles O37: the running state becomes the five sums, and the two branches are `FOLD`'s own. -/
theorem foldAddsAndBranches : Obligations.FoldAddsAndBranches := by
  intro s e
  refine ⟨e.foldedH, BitVec.toNat_add _ _, BitVec.toNat_add _ _, BitVec.toNat_add _ _,
    BitVec.toNat_add _ _, BitVec.toNat_add _ _, fun h => ?_, fun h => ?_⟩
  · have hbi : BitVec.ofNat 24 (e.BI.toNat + 1) = e.BI + 1#24 := by
      rw [BitVec.ofNat_add, BitVec.ofNat_toNat, BitVec.setWidth_eq]
    rw [exec_fold, State.microOp, Engine.foldState_next h, hbi]
    rfl
  · rw [exec_fold, State.microOp, Engine.foldState_last h]
    rfl

/-! ### The stage RND (R178, R179) -/

/-- A register file read as a list. -/
theorem getD_toList {w n : Nat} (v : Vector (BitVec w) n) (i : Nat) :
    v.toList.getD i 0#w = rget v i := by
  by_cases h : i < n <;> simp [rget, h]

/-- The engine's turn in RND is the round of its index. -/
theorem Engine.micro_of_rnd {e : Engine} (hs : e.STG = Stage.rnd) (hj : e.J.toNat ≤ 79) :
    e.micro = e.roundStep (Fin.ofNat 4 (e.J.toNat / 20)) e.J := by
  have hl : e.SeqLegal := .inr (.inr (.inr (.inr (.inl ⟨hs, hj⟩))))
  simpa [hs, hj] using micro_spec hl

/-- `e'` is `e` after the first `n` rounds, with the sequencer at the next round, or at FOLD after the
last. -/
def Engine.HasRounded (e : Engine) (n : Nat) (e' : Engine) : Prop :=
  e'.work = Reference.rounds e.W.toList e.work n ∧
  e' = { e with
    A := e'.A, B := e'.B, C := e'.C, D := e'.D, E := e'.E
    STG := if n = 80 then 5#4 else 4#4
    J := if n = 80 then 0#7 else BitVec.ofNat 7 n }

theorem Engine.hasRounded_zero {e : Engine} (hs : e.STG = Stage.rnd) (hj : e.J = 0#7) :
    e.HasRounded 0 e := by
  refine ⟨rfl, ?_⟩
  rw [if_neg (by decide), if_neg (by decide), ← stage_rnd, ← hs, ← hj]

/-- The engine's turn does one round more; `W` is only read (R179). -/
theorem Engine.HasRounded.micro {e e' : Engine} {n : Nat} (h : e.HasRounded n e') (hn : n < 80) :
    e.HasRounded (n + 1) e'.micro := by
  obtain ⟨hwork, he⟩ := h
  rw [if_neg (by omega), if_neg (by omega)] at he
  have hs : e'.STG = Stage.rnd := congrArg Engine.STG he
  have hW : e'.W = e.W := by rw [he]
  have hj : e'.J.toNat = n := by
    rw [congrArg Engine.J he, BitVec.toNat_ofNat]
    omega
  have hm := micro_of_rnd hs (by omega)
  constructor
  · rw [hm, roundStep_work (getD_toList e'.W e'.J.toNat).symm, hwork, hW, hj, Reference.rounds_succ]
  · rw [hm, roundStep_eq, hj, he]
    simp only [Nat.reduceEqDiff]

/-- Up to eighty turns of the engine in RND do as many rounds. -/
theorem Engine.hasRounded_iterate {e : Engine} (hs : e.STG = Stage.rnd) (hj : e.J = 0#7) {n : Nat}
    (hn : n ≤ 80) : e.HasRounded n (Engine.micro^[n] e) := by
  induction n with
  | zero => exact hasRounded_zero hs hj
  | succ n ih =>
    rw [Function.iterate_succ_apply']
    exact (ih (by omega)).micro (by omega)

/-- Settles O49: with no turn listed the run is eighty turns of the engine, each the round of its
index. -/
theorem rndStageIsEightyRounds : Obligations.RndStageIsEightyRounds := by
  intro s hs hj ht
  have hl : s.engine.SeqLegal := .inr (.inr (.inr (.inr (.inl ⟨hs, by simp [hj]⟩))))
  obtain ⟨hwork, he⟩ := Engine.hasRounded_iterate hs hj le_rfl
  have hrun := run_engine_alone 80 ht hl
  generalize Engine.micro^[80] s.engine = e' at hwork he hrun
  exact ⟨_, hrun, hwork, he⟩

end Sys2Proof.Machine

/-! PROOFS. The digest serializer (`44_digest_encoding.md`): the characters `HEXW` writes, and that in
DONE the digest stays. -/

namespace Sys2Proof.Machine

/-! ### `HEXW` (R190 to R192) -/

theorem exec_hexw (i : Index) (s : State) :
    exec (.hexw i) s = .next (s.microOp (·.encodeWord i)) := rfl

/-- Everything `HEXW` does: eight characters of `DIG`, and the sequencer's move. -/
theorem Engine.encodeWord_eq (e : Engine) (i : Index) :
    e.encodeWord i = { e with
      DIG := writeDigits e.DIG i.toNat (rget e.H i.toNat)
      STG := if i.toNat = 4 then 7#4 else 6#4
      J := if i.toNat = 4 then 0#7 else BitVec.ofNat 7 (i.toNat + 1) } :=
  Engine.advance_spec _ _ _ i (last := 4) (by decide)

/-- Nibble `n` is the `n`-th of the eight hexadecimal digits of the word's number (R190). -/
theorem toNat_nibble (x : Word) {n : Nat} (hn : n < 8) :
    (nibble x n).toNat = x.toNat / 16 ^ (7 - n) % 16 := by
  have hpow : 16 ^ (7 - n) = 2 ^ (28 - 4 * n) := by
    rw [show 28 - 4 * n = 4 * (7 - n) by omega, Nat.pow_mul]
  rw [nibble, BitVec.extractLsb'_toNat, Nat.shiftRight_eq_div_pow, hpow]

/-- The character codes as numbers (R191). -/
theorem toNat_hexchar :
    ∀ n : BitVec 4, (hexchar n).toNat = if n.toNat ≤ 9 then 0x30 + n.toNat else 0x57 + n.toNat := by
  decide

/-- Settles O38: the characters written are those of the word's nibbles, most significant first. -/
theorem hexwWritesEightCharacters : Obligations.HexwWritesEightCharacters := by
  intro s i hi
  have hget (c : Nat) :=
    writeDigits_rget s.engine.DIG i.toNat (rget s.engine.H i.toNat) c (by omega)
  refine ⟨writeDigits s.engine.DIG i.toNat (rget s.engine.H i.toNat), ?_, fun n hn => ?_,
    fun c _ hc => (hget c).trans (if_neg hc)⟩
  · rw [exec_hexw, State.microOp, Engine.encodeWord_eq]
  · rw [hget, if_pos (by omega), Nat.add_sub_cancel_left, toNat_hexchar, toNat_nibble _ hn]

/-! ### The digest in DONE (R193, R244) -/

/-- `e'` shows the host the finished computation of `e`: the stage, the digest in both forms, and the
cause. -/
def Engine.KeepsDigest (e e' : Engine) : Prop :=
  e'.STG = e.STG ∧ e'.H = e.H ∧ e'.DIG = e.DIG ∧ e'.ECODE = e.ECODE

theorem Engine.keepsDigest_refl (e : Engine) : e.KeepsDigest e := ⟨rfl, rfl, rfl, rfl⟩

/-- Outside BUSY a register write that is no command but `NOP` keeps the digest (R121, R125). -/
theorem Engine.writeReg_keepsDigest {e : Engine} (hb : e.isBusy = false) {r : Reg} {v : Word}
    (hv : r = .cmd → v = 0#32) : e.KeepsDigest (e.writeReg r v) := by
  obtain ⟨hr, hw⟩ | ⟨-, hbusy, -⟩ | ⟨-, -, hw⟩ | hw := e.writeReg_cases r v
  · rw [hw, hv hr, command_nop]
    exact e.keepsDigest_refl
  · exact absurd (hb.symm.trans hbusy) nofun
  · rw [hw]
    exact ⟨rfl, rfl, rfl, rfl⟩
  · rw [hw]
    exact e.keepsDigest_refl

/-- Outside BUSY a message write keeps the digest (R123). -/
theorem Engine.writeMessage_keepsDigest {e : Engine} (hb : e.isBusy = false) (a : Nat) (b : Byte) :
    e.KeepsDigest (e.writeMessage a b) := by
  obtain ⟨hbusy, -⟩ | ⟨-, hw⟩ := e.writeMessage_cases a b
  · exact absurd (hb.symm.trans hbusy) nofun
  · rw [hw]
    exact ⟨rfl, rfl, rfl, rfl⟩

/-- Outside BUSY a transaction that is no command but `NOP` keeps the digest. -/
theorem effect_transaction_keepsDigest {w : BitVec 64} {i : Instr} (hd : decodeT w = .ok i)
    {e : Engine} (hb : e.isBusy = false) (hv : ∀ v, i = .wr .cmd v → v = 0#32) :
    e.KeepsDigest (effect i e) := by
  obtain ⟨r, rfl⟩ | ⟨r, v, rfl⟩ | ⟨a, rfl⟩ | ⟨a, b, rfl⟩ := decodeT_transaction hd
  · exact e.keepsDigest_refl
  · exact Engine.writeReg_keepsDigest hb fun hr => hv v (by rw [hr])
  · exact e.keepsDigest_refl
  · exact Engine.writeMessage_keepsDigest hb a.toNat b

/-- Settles O46: in DONE the engine's turn passes, and the host's transaction keeps the digest. -/
theorem digestStaysInDone : Obligations.DigestStaysInDone := by
  intro s t h hs hst hreset hcmd
  have hb : s.engine.isBusy = false := Engine.done_not_busy hs
  have hkeeps : s.engine.KeepsDigest t.engine := by
    obtain ⟨w, i, ht, hd, he⟩ | ⟨-, he⟩ | ⟨ht, -⟩ := step_engine_cases hst
    · rw [he]
      exact effect_transaction_keepsDigest hd hb fun v hi => hcmd w v ht (hi ▸ hd)
    · obtain ⟨hl, -⟩ := h
      rw [he, Engine.micro_of_not_busy hl hb]
      exact s.engine.keepsDigest_refl
    · exact absurd ht hreset
  obtain ⟨hstg, hH, hdig, hcode⟩ := hkeeps
  exact ⟨hstg.trans hs, hH, hdig, hcode⟩

end Sys2Proof.Machine

/-! PROOFS. Exceptions (`60_exceptions.md`): what raises a fault and what fault entry writes, that
micro-operations raise none, that the first cause sticks, and the members of a platform. -/

namespace Sys2Proof.Machine

/-! ### Micro-operations raise no fault (R206) -/

/-- The sequencer's move leads to FAULT only where one of its two targets is FAULT. -/
theorem Engine.advance_STG_ne_fault (e : Engine) {g n : BitVec 4} {j l : Index}
    (hg : g ≠ Stage.fault) (hn : n ≠ Stage.fault) : (e.advance g j l n).STG ≠ Stage.fault := by
  rw [advance_STG]
  split <;> assumption

theorem effect_micro_STG_ne_fault {i : Instr} (hi : i.format = .s) (e : Engine) :
    (effect i e).STG ≠ Stage.fault := by
  cases i with
  | rd | wr | rdm | wrm | nop | start | clr => cases hi
  | ldw | xw | rnd0 | rnd1 | rnd2 | rnd3 | hexw =>
    exact Engine.advance_STG_ne_fault _ (by decide) (by decide)
  | cpw | lds => simp [effect, Engine.copyWord, Engine.loadWorking]
  | fold =>
    by_cases hlast : e.BI.toNat + 1 < e.NBLK.toNat
    · simp [effect, Engine.foldState_next hlast]
    · simp [effect, Engine.foldState_last hlast]

/-- Settles O26: every operation completes, and the sequencer's targets are stages other than FAULT. -/
theorem microOperationsNeverFault : Obligations.MicroOperationsNeverFault := by
  intro i s hi
  obtain ⟨t, hx, he, -⟩ := exec_spec i s
  obtain ⟨-, -, -, hcode⟩ := effect_keepsInput hi s.engine
  exact ⟨t, hx, he ▸ effect_micro_STG_ne_fault hi s.engine, he ▸ hcode⟩

/-! ### Fault entry (R204) -/

theorem Cause.code_cases (k : Cause) : k.code = 1#4 ∨ k.code = 2#4 ∨ k.code = 3#4 := by
  cases k <;> simp [Cause.code]

/-- A command that leads from another stage into FAULT raised a fault. -/
theorem Engine.command_raise_of_fault {e : Engine} {v : Word} (hs : e.STG ≠ Stage.fault)
    (hf : (e.command v).STG = Stage.fault) : ∃ k, e.command v = e.raise k := by
  obtain hc | hk | ⟨-, hc⟩ | ⟨-, -, -, -, hc⟩ := e.command_spec v
  · exact absurd (hc ▸ hf) hs
  · exact hk
  · simp [hc] at hf
  · simp [hc] at hf

/-- A register write that leads from another stage into FAULT raised a fault. -/
theorem Engine.writeReg_raise_of_fault {e : Engine} {r : Reg} {v : Word} (hs : e.STG ≠ Stage.fault)
    (hf : (e.writeReg r v).STG = Stage.fault) : ∃ k, e.writeReg r v = e.raise k := by
  obtain ⟨-, hw⟩ | ⟨-, -, hw⟩ | ⟨-, -, hw⟩ | hw := e.writeReg_cases r v <;> rw [hw] at hf ⊢
  · exact command_raise_of_fault hs hf
  · exact ⟨_, rfl⟩
  · exact absurd hf hs
  · exact absurd hf hs

/-- A message write that leads from another stage into FAULT raised a fault. -/
theorem Engine.writeMessage_raise_of_fault {e : Engine} {a : Nat} {b : Byte}
    (hs : e.STG ≠ Stage.fault) (hf : (e.writeMessage a b).STG = Stage.fault) :
    ∃ k, e.writeMessage a b = e.raise k := by
  obtain ⟨-, hw⟩ | ⟨-, hw⟩ := e.writeMessage_cases a b <;> rw [hw] at hf ⊢
  · exact ⟨_, rfl⟩
  · exact absurd hf hs

/-- `raise` is the only way into FAULT. -/
theorem effect_raise_of_fault {i : Instr} {e : Engine} (hs : e.STG ≠ Stage.fault)
    (hf : (effect i e).STG = Stage.fault) : ∃ k, effect i e = e.raise k := by
  cases i with
  | rd | rdm => exact absurd hf hs
  | wr => exact Engine.writeReg_raise_of_fault hs hf
  | wrm => exact Engine.writeMessage_raise_of_fault hs hf
  | nop | start | clr => exact Engine.command_raise_of_fault hs hf
  | ldw | cpw | xw | lds | rnd0 | rnd1 | rnd2 | rnd3 | fold | hexw =>
    exact absurd hf (effect_micro_STG_ne_fault rfl e)

/-- Settles O25: `raise` is the only way into FAULT, and it writes the three registers. -/
theorem faultEntryWritesThreeRegisters : Obligations.FaultEntryWritesThreeRegisters := by
  intro i s t hx hs hf
  obtain ⟨he, -⟩ := exec_inv hx
  obtain ⟨k, hk⟩ := effect_raise_of_fault hs (he ▸ hf)
  exact ⟨k.code, k.code_cases, he.trans hk⟩

/-- The whole step of an operation that raises a fault outside FAULT: fault entry, and no read data. -/
theorem exec_of_raise {i : Instr} {s : State} {k : Cause} (hs : s.engine.STG ≠ Stage.fault)
    (hk : effect i s.engine = s.engine.raise k) :
    exec i s = .next (s.hostWrite (·.raise k)) := by
  have hf : (effect i s.engine).STG = Stage.fault := by rw [hk, Engine.raise_STG]
  have hwrite (h : exec i s = .next (s.hostWrite (effect i))) :
      exec i s = .next (s.hostWrite (·.raise k)) := by
    rw [h, State.hostWrite, hk]
    rfl
  cases i with
  | rd | rdm => exact absurd hf hs
  | wr | wrm | nop | start | clr => exact hwrite rfl
  | ldw | cpw | xw | lds | rnd0 | rnd1 | rnd2 | rnd3 | fold | hexw =>
    exact absurd hf (effect_micro_STG_ne_fault rfl s.engine)

/-! ### The three causes (R201 to R203) -/

/-- Settles O21: `START` raises InputTooLarge, which is fault entry. -/
theorem startTooLargeFaults : Obligations.StartTooLargeFaults := by
  intro s hs hlen
  obtain ⟨hb, hf⟩ := Engine.ready_not_busy hs
  have hk : effect .start s.engine = s.engine.raise .inputTooLarge := by
    simp [effect, Engine.command_start, hb, hf, Engine.start_tooLarge hlen]
  exact exec_of_raise (fun h => by simp [Engine.isFault, h] at hf) hk

/-- In FAULT a command word other than `CLR` is ignored (R124). -/
theorem Engine.command_ignored_of_fault {e : Engine} (hs : e.STG = Stage.fault) {v : Word}
    (hv : v ≠ 2#32) : e.command v = e :=
  (command_fault ((isFault_iff e).mpr hs) v).trans (if_neg hv)

/-- Settles O24: an undefined word fails the first check outside FAULT, and in FAULT it is not `CLR`. -/
theorem illegalCommandFaults : Obligations.IllegalCommandFaults := by
  intro s v h0 h1 h2
  refine ⟨fun hs => ?_, fun hs => ?_⟩
  · have hf : s.engine.isFault = false := by simpa [Engine.isFault] using hs
    exact exec_of_raise (i := .wr .cmd v) hs (Engine.command_illegal hf h0 h1 h2)
  · have hk : s.engine.writeReg .cmd v = s.engine := Engine.command_ignored_of_fault hs h2
    rw [exec_wr, State.hostWrite, hk]

/-- While BUSY these four operations raise BusyViolation (R203). -/
theorem effect_raise_of_busy {e : Engine} (hb : e.isBusy = true) {i : Instr}
    (hi : i = .start ∨ i = .clr ∨ (∃ v, i = .wr .len v) ∨ (∃ a b, i = .wrm a b)) :
    effect i e = e.raise .busyViolation := by
  obtain rfl | rfl | ⟨v, rfl⟩ | ⟨a, b, rfl⟩ := hi
  · simp [effect, Engine.command_start, hb, Engine.busy_not_fault hb]
  · simp [effect, Engine.command_clr, hb]
  · exact if_pos hb
  · exact if_pos hb

/-- In every stage a read, `NOP` and a write of a register that has no write leave the engine as it is. -/
theorem effect_of_ignored {i : Instr} (e : Engine)
    (hi : i = .nop ∨ (∃ r, i = .rd r) ∨ (∃ a, i = .rdm a) ∨
      (∃ r v, i = .wr r v ∧ r ≠ .cmd ∧ r ≠ .len)) : effect i e = e := by
  obtain rfl | ⟨r, rfl⟩ | ⟨a, rfl⟩ | ⟨r, v, rfl, hc, hl⟩ := hi
  · exact e.command_nop
  · rfl
  · rfl
  · exact Engine.writeReg_ignored hc hl e v

/-- Settles O23: the four operations raise BusyViolation, and the others have no effect. -/
theorem busyWritesFault : Obligations.BusyWritesFault := by
  intro s i hlo hhi
  have hb : s.engine.isBusy = true := (Engine.isBusy_iff _).mpr ⟨hlo, hhi⟩
  refine ⟨fun hi => ?_, fun hi => ?_⟩
  · have hs : s.engine.STG ≠ Stage.fault := fun h => by simp [Engine.fault_not_busy h] at hb
    exact exec_of_raise hs (effect_raise_of_busy hb hi)
  · obtain ⟨t, hx, he, -⟩ := exec_spec i s
    exact ⟨t, hx, he.trans (effect_of_ignored s.engine hi)⟩

/-! ### In FAULT (R209, R212) -/

/-- `e'` shows the stage and the cause of `e`. -/
def Engine.KeepsCause (e e' : Engine) : Prop := e'.STG = e.STG ∧ e'.ECODE = e.ECODE

theorem Engine.keepsCause_refl (e : Engine) : e.KeepsCause e := ⟨rfl, rfl⟩

/-- In FAULT a register write that is not `CLR` keeps the stage and the cause. -/
theorem Engine.writeReg_keepsCause {e : Engine} (hs : e.STG = Stage.fault) {r : Reg} {v : Word}
    (hv : r = .cmd → v ≠ 2#32) : e.KeepsCause (e.writeReg r v) := by
  obtain ⟨hr, hw⟩ | ⟨-, hb, -⟩ | ⟨-, -, hw⟩ | hw := e.writeReg_cases r v
  · rw [hw, command_ignored_of_fault hs (hv hr)]
    exact e.keepsCause_refl
  · exact absurd ((fault_not_busy hs).symm.trans hb) nofun
  · rw [hw]
    exact ⟨rfl, rfl⟩
  · rw [hw]
    exact e.keepsCause_refl

/-- In FAULT `WR LEN` is performed. -/
theorem Engine.writeReg_len_of_fault {e : Engine} (hs : e.STG = Stage.fault) (v : Word) :
    e.writeReg .len v = { e with LEN := v } := if_neg (by simp [fault_not_busy hs])

/-- In FAULT `WRM` is performed. -/
theorem Engine.writeMessage_of_fault {e : Engine} (hs : e.STG = Stage.fault) (a : Nat) (b : Byte) :
    e.writeMessage a b = { e with M := e.M.write a b } := if_neg (by simp [fault_not_busy hs])

/-- In FAULT a host operation that is not `CLR` keeps the stage and the cause. -/
theorem effect_keepsCause {e : Engine} (hs : e.STG = Stage.fault) {i : Instr} (hi : i.format ≠ .s)
    (hclr : i ≠ .clr) (hwr : i ≠ .wr .cmd 2#32) : e.KeepsCause (effect i e) := by
  cases i with
  | rd | rdm => exact e.keepsCause_refl
  | wr r v => exact Engine.writeReg_keepsCause hs fun hr hv => hwr (by rw [hr, hv])
  | wrm a b =>
    rw [effect, Engine.writeMessage_of_fault hs]
    exact ⟨rfl, rfl⟩
  | nop | start =>
    rw [effect, Engine.command_ignored_of_fault hs (by decide)]
    exact e.keepsCause_refl
  | clr => exact absurd rfl hclr
  | ldw | cpw | xw | lds | rnd0 | rnd1 | rnd2 | rnd3 | fold | hexw => exact absurd rfl hi

/-- Settles O27: no host operation but `CLR` has an effect on the two registers, and FAULT is not
BUSY. -/
theorem firstCauseSticks : Obligations.FirstCauseSticks := by
  intro s hs
  refine ⟨fun i hi hclr hwr => ?_, fun v => ?_, fun a b hm ha => ?_⟩
  · obtain ⟨t, hx, he, -⟩ := exec_spec i s
    obtain ⟨hstg, hcode⟩ := effect_keepsCause hs hi hclr hwr
    exact ⟨t, hx, he ▸ hstg.trans hs, he ▸ hcode⟩
  · refine ⟨_, exec_wr .len v s, ?_⟩
    rw [State.hostWrite_engine, Engine.writeReg_len_of_fault hs]
  · refine ⟨_, exec_wrm a b s, ?_⟩
    rw [State.hostWrite_engine, Engine.writeMessage_of_fault hs, Memory.byteAt_write hm,
      if_pos ⟨rfl, ha⟩]

/-! ### The members of a platform (R216) -/

/-- A step of a member that goes on is a step of the platform. -/
theorem Platform.stepMember_next {p : Platform} {k : Fin p.members.length} {t : State}
    (h : step p.members[k] = .next t) : ∃ q, p.stepMember k = .next q := by
  unfold Platform.stepMember
  rw [h]
  exact ⟨_, rfl⟩

/-- A step whose turn is not reset replaces member `k` only. -/
theorem Platform.stepMember_of_not_reset {p q : Platform} {k : Fin p.members.length}
    (h : p.stepMember k = .next q) (ht : p.members[k].turn ≠ .reset) :
    ∃ t, step p.members[k] = .next t ∧ q.members = p.members.set k t := by
  obtain ⟨t, hst, rfl⟩ := stepMember_spec h
  exact ⟨t, hst, by rw [if_neg ht]⟩

/-- A step whose turn is reset resets every member, and takes the turn of member `k`. -/
theorem Platform.stepMember_of_reset {p q : Platform} {k : Fin p.members.length}
    (h : p.stepMember k = .next q) (ht : p.members[k].turn = .reset) :
    step p.members[k] = .next p.members[k].taken.resetEvent ∧
      q.members = (p.members.set k p.members[k].taken).map State.resetEvent := by
  obtain ⟨t, hst, rfl⟩ := stepMember_spec h
  obtain rfl := step_of_reset ht hst
  refine ⟨hst, ?_⟩
  rw [if_pos ht, resetEvent_members, List.map_set, List.map_set, State.resetEvent_resetEvent]

/-- What a reset turn of member `k` makes of member `n`: the reset event, after the turn is taken
where `n` is `k`. -/
theorem Platform.getElem?_of_reset {p q : Platform} {k : Fin p.members.length}
    (h : p.stepMember k = .next q) (ht : p.members[k].turn = .reset) {n : Nat} {s : State}
    (hn : p.members[n]? = some s) :
    q.members[n]? = some (if n = k.val then s.taken else s).resetEvent := by
  obtain ⟨-, hq⟩ := stepMember_of_reset h ht
  obtain ⟨hlt, rfl⟩ := List.getElem?_eq_some_iff.mp hn
  rw [hq, List.getElem?_map, List.getElem?_set]
  by_cases hk : n = k.val
  · subst hk
    simp
  · simp [hk, Ne.symm hk, hlt]

/-- Settles O55: a step replaces one element of the list of members, and a reset turn maps the reset
event over the list. -/
theorem platformMembersAreIndependent : Obligations.PlatformMembersAreIndependent := by
  refine ⟨fun p q k h => ?_, fun _ _ _ => Platform.stepMember_next, fun n cap s hs => ?_⟩
  · by_cases ht : p.members[k].turn = .reset
    · obtain ⟨hst, hq⟩ := Platform.stepMember_of_reset h ht
      refine ⟨by simp [hq], ⟨_, hst, ?_⟩, fun hne => absurd ht hne, fun _ n s hn => ?_⟩
      · rw [Platform.getElem?_of_reset h ht (List.getElem?_eq_getElem k.isLt), if_pos rfl]
        rfl
      · refine ⟨_, Platform.getElem?_of_reset h ht hn, rfl, rfl, rfl, rfl, rfl, rfl, ?_, fun hk => ?_⟩
        · rw [State.resetEvent_engine, Engine.reset_M]
          split <;> rfl
        · rw [if_neg hk, State.resetEvent_turns]
    · obtain ⟨t, hst, hq⟩ := Platform.stepMember_of_not_reset h ht
      refine ⟨by simp [hq], ⟨t, hst, by simp [hq]⟩, fun _ n hn => ?_, fun hr => absurd hr ht⟩
      rw [hq, List.getElem?_set_ne hn.symm]
  · obtain ⟨life, -, rfl⟩ := List.mem_map.mp hs
    exact ⟨rfl, rfl, rfl, rfl⟩

end Sys2Proof.Machine

/-! PROOFS. Reset and whole computations (`70_reset_and_hazards.md`): the reset event, the progress of a
computation, and what `START` followed by any harmless turns comes to. -/

namespace Sys2Proof.Machine

/-! ### Reset (R230) -/

/-- A reset turn always runs, whatever the control word. -/
theorem step_reset {s : State} (ht : s.turn = .reset) : step s = .next s.taken.resetEvent := by
  have hf : s.fetch = .reset := by simp only [State.fetch, ht]
  rw [step, hf]

/-- After reset `STATUS` is 0 (`10_state.md` R40). -/
theorem Engine.status_reset (e : Engine) : e.reset.status = 0x00000000#32 := by
  apply BitVec.eq_of_toNat_eq
  rw [toNat_status_idle (e := e.reset) rfl]
  rfl

/-- Settles O10: the next state is the reset event, in which the engine is quiescent. -/
theorem resetEventLeavesIdle : Obligations.ResetEventLeavesIdle := by
  intro s ht
  exact ⟨_, step_reset ht, rfl, rfl, rfl, rfl, rfl, rfl, fun _ => rfl, rfl, rfl,
    ⟨_, exec_rd .status _, congrArg some s.engine.status_reset⟩,
    quiescentEngineKeepsState _ rfl rfl (.inl rfl)⟩

/-! ### Progress (R246, R247) -/

/-- Settles O43: the engine's turn is `Engine.micro`, which leaves one micro-operation fewer. -/
theorem engineTurnMakesProgress : Obligations.EngineTurnMakesProgress := by
  intro s h
  obtain ⟨hl, -⟩ := h
  exact ⟨fun hb ht => ⟨_, step_engine ht hl, Engine.stepsLeft_micro hl hb⟩,
    Engine.stepsLeft_eq_zero_iff hl⟩

/-! ### `START` and harmless turns (R244 to R248) -/

/-- `START` changes neither the length nor the memory, accepted or refused. -/
theorem Engine.start_input (e : Engine) : e.start.LEN = e.LEN ∧ e.start.M = e.M := by
  unfold Engine.start
  split <;> exact ⟨rfl, rfl⟩

/-- The transaction of `startWord` starts the engine outside BUSY and FAULT. -/
theorem step_startWord {s : State} (ht : s.turn = .host startWord)
    (hb : s.engine.isBusy = false) (hf : s.engine.isFault = false) :
    ∃ t, step s = .next t ∧ t.engine = s.engine.start ∧ t.turns = s.turns.tail := by
  have hd : decodeT startWord = .ok (.wr .cmd 0x00000001#32) := by decide
  obtain ⟨t, hx, he, hturns⟩ := exec_spec (.wr .cmd 0x00000001#32) s.taken
  refine ⟨t, (step_of_host ht hd).trans hx, ?_, hturns⟩
  calc t.engine = s.engine.command 0x00000001#32 := he
    _ = s.engine.start := by simp [Engine.command_start, hb, hf]

/-- `START` and then harmless turns leave the started engine after its own turns. -/
theorem run_startWord {s : State} {ts : List Turn}
    (hs : s.engine.STG = Stage.idle ∨ s.engine.STG = Stage.done)
    (hl : s.engine.start.SeqLegal) (hh : ∀ t ∈ ts, t.harmless = true) :
    ∃ u, Sys2Proof.core.run (ts.length + 1) (s.withTurns (.host startWord :: ts)) = .next u ∧
      u.turns = [] ∧ u.engine = Engine.micro^[ts.count .engine] s.engine.start := by
  obtain ⟨hb, hf⟩ := Engine.ready_not_busy hs
  obtain ⟨t, hstep, he, hturns⟩ :=
    step_startWord (s := s.withTurns (.host startWord :: ts)) rfl hb hf
  rw [State.withTurns_engine] at he
  obtain ⟨u, hrun, hu, hnil⟩ := run_harmless hh (s := t) hturns (he ▸ hl)
  have hs' : Sys2Proof.core.step (s.withTurns (.host startWord :: ts)) = .next t := hstep
  refine ⟨u, ?_, hnil, he ▸ hu⟩
  simp only [Host.Core.run, hs']
  exact hrun

/-- `START` with a length that fits, then harmless turns: the engine computes its input's digest, and has
one micro-operation fewer left for each of its turns. -/
theorem run_computation {s : State} {ts : List Turn} (h : s.Inv)
    (hs : s.engine.STG = Stage.idle ∨ s.engine.STG = Stage.done)
    (hm : s.engine.LEN.toNat ≤ s.engine.M.size) (hh : ∀ t ∈ ts, t.harmless = true) :
    ∃ u, Sys2Proof.core.run (ts.length + 1) (s.withTurns (.host startWord :: ts)) = .next u ∧
      u.turns = [] ∧ s.engine.ComputesInputOf u.engine ∧ u.engine.Tracks s.engine.message ∧
      u.engine.stepsLeft = microOps s.engine.LEN.toNat - ts.count .engine := by
  obtain ⟨-, hf⟩ := Engine.ready_not_busy hs
  obtain ⟨hinv, hb, hleft, hmsg, htracks⟩ := Engine.start_tracks h hf hm
  obtain ⟨hl, -⟩ := id hinv
  obtain ⟨u, hrun, hnil, hu⟩ := run_startWord hs hl hh
  obtain ⟨hlen, hM⟩ := s.engine.start_input
  refine ⟨u, hrun, hnil, ?_, ?_, ?_⟩ <;> rw [hu]
  · obtain ⟨hinv', hstage, hlen', hM'⟩ := Engine.computesInputOf_iterate hinv hb (ts.count .engine)
    exact ⟨hinv', hstage, hlen'.trans hlen, hM'.trans hM⟩
  · rw [← hmsg] at htracks ⊢
    exact Engine.tracks_iterate htracks hinv hb _
  · rw [Engine.stepsLeft_iterate hl, hleft]

/-- A computation with no micro-operation left is in DONE. -/
theorem Engine.ComputesInputOf.done_of_stepsLeft {e₀ e : Engine} (h : e₀.ComputesInputOf e)
    (h₀ : e.stepsLeft = 0) : e.STG = Stage.done := by
  obtain ⟨⟨hl, -⟩, hs, -, -⟩ := h
  exact hs.resolve_left (by simp [(stepsLeft_eq_zero_iff hl).mp h₀])

/-- A computation with a micro-operation left is BUSY. -/
theorem Engine.ComputesInputOf.busy_of_stepsLeft {e₀ e : Engine} (h : e₀.ComputesInputOf e)
    (h₀ : 0 < e.stepsLeft) : e.isBusy = true := by
  obtain ⟨⟨hl, -⟩, -, -, -⟩ := h
  exact Bool.eq_true_of_not_eq_false fun hb => h₀.ne' ((stepsLeft_eq_zero_iff hl).mpr hb)

/-- In DONE the index is 0 (`10_state.md` R35). -/
theorem Engine.SeqLegal.index_of_done {e : Engine} (h : e.SeqLegal) (hs : e.STG = Stage.done) :
    e.J = 0#7 := by
  apply index_eq_zero
  simpa [Engine.SeqLegal, hs] using h

theorem Reference.length_sha1hex (m : List Byte) : (sha1hex m).length = 40 := rfl

/-- A list of forty characters read into `DIG` is the list that `DIG` holds. -/
theorem toList_eq_of_agreesBelow {w n : Nat} {v : Vector (BitVec w) n} {l : List (BitVec w)}
    (hlen : l.length = n) (h : AgreesBelow v (l.getD · 0#w) n) : v.toList = l := by
  rw [toList_eq_map_rget]
  refine List.ext_getElem (by simp [hlen]) fun i _ hi => ?_
  rw [List.getElem_map, List.getElem_range, h i (hlen ▸ hi)]
  exact List.getD_eq_getElem _ _ hi

/-- Settles O50: the run is a computation with no micro-operation left, so that it is in DONE with the
digest it tracks. -/
theorem digestIsSha1OfMessage : Obligations.DigestIsSha1OfMessage := by
  intro s ts h hs hm hh hcount
  obtain ⟨u, hrun, hnil, hcomp, htracks, hleft⟩ := run_computation h hs hm hh
  have hdone := hcomp.done_of_stepsLeft (by omega)
  obtain ⟨hinv, -, hlen, hM⟩ := hcomp
  obtain ⟨hl, -⟩ := id hinv
  obtain ⟨hhash, hdig⟩ := htracks.of_done hdone
  exact ⟨u, hrun, hnil, hdone, hl.index_of_done hdone, hinv.ecode_zero (by simp [hdone]), hlen, hM,
    hhash, toList_eq_of_agreesBelow (Reference.length_sha1hex _) hdig⟩

/-! ### Independence (R245) -/

/-- The message is the length and the bytes below it. -/
theorem Engine.message_eq {e e' : Engine} (hlen : e.LEN = e'.LEN)
    (hM : ∀ a, a < e.LEN.toNat → e.M.byteAt a = e'.M.byteAt a) : e.message = e'.message := by
  rw [Engine.message, Engine.message, ← hlen]
  exact List.map_congr_left fun a ha => hM a (List.mem_range.mp ha)

/-- The five words of the running state are the whole of `H`. -/
theorem Engine.H_eq_of_hash {e e' : Engine} (h : e.hash = e'.hash) : e.H = e'.H :=
  rget_ext fun i hi => by
    rw [← hash_words_getD e hi, h, hash_words_getD e' hi]

/-- Settles O54: both runs end with the digest of the one message. -/
theorem digestDependsOnMessageOnly : Obligations.DigestDependsOnMessageOnly := by
  intro s s' ts ts' h h' hs hs' hlen hm hm' hM hh hh' hcount hcount'
  have hmsg := Engine.message_eq hlen hM
  obtain ⟨u, hrun, -, hdone, -, -, -, -, hhash, hdig⟩ := digestIsSha1OfMessage s ts h hs hm hh hcount
  obtain ⟨u', hrun', -, hdone', -, -, -, -, hhash', hdig'⟩ :=
    digestIsSha1OfMessage s' ts' h' hs' hm' hh' (hlen ▸ hcount')
  rw [← hmsg] at hhash' hdig'
  exact ⟨u, u', hrun, hrun', hdone, hdone', Engine.H_eq_of_hash (hhash.trans hhash'.symm),
    Vector.toList_inj.mp (hdig.trans hdig'.symm)⟩

/-! ### BUSY to the last micro-operation (R246) -/

/-- While BUSY under the invariant `STATUS` is 1 (`10_state.md` R40). -/
theorem Engine.Inv.status_busy {e : Engine} (h : e.Inv) (hb : e.isBusy = true) :
    e.status = 0x00000001#32 := by
  apply BitVec.eq_of_toNat_eq
  rw [toNat_status_busy hb, h.ecode_zero (busy_ne hb).2]
  rfl

/-- Settles O53: the run is a computation with a micro-operation left. -/
theorem busyUntilLastMicroOperation : Obligations.BusyUntilLastMicroOperation := by
  intro s ts h hs hm hh hcount
  obtain ⟨u, hrun, -, hcomp, -, hleft⟩ := run_computation h hs hm hh
  have hb := hcomp.busy_of_stepsLeft (by omega)
  obtain ⟨hinv, -⟩ := hcomp
  exact ⟨u, _, hrun, exec_rd .status u, congrArg some (hinv.status_busy hb)⟩

end Sys2Proof.Machine
